-- ==== Sys2Proof/Word.lean ====
section
/-! DEFINITION. The word of the bus and of a command. -/

namespace Sys2Proof

/-- A 32-bit word: what one host access carries (R63), what a command is (R90) and what the random
source delivers (R39). Bit 0 is the least significant bit (R10). -/
abbrev Word := BitVec 32

end Sys2Proof
end

