-- ==== Sys2Proof/Config.lean ====
section
/-! DEFINITION. The implementation parameters of R6 as plain data, and the free values of the model. -/

namespace Sys2Proof

/-- The parameters of one core (R6). A machine carries them in its state, no step changes them, and a
claim over every state is a claim for every value of them. -/
structure Config where
  /-- `W`, the width in bits of every operand register and every key-bank register (D2). -/
  width : Nat
  /-- `BASE`, the bus address of window offset 0 (D7). OPEN in the spec. -/
  base : Nat
  /-- `E_LIMIT`, the exclusive bound of the public-exponent search (D22). OPEN in the spec. -/
  eLimit : Nat
  /-- `MAX_TRIALS` (D29), OPEN in the spec: a table from BITLEN to a number of candidates. A BITLEN the
  table does not list has the default, 64 * BITLEN. -/
  trialBounds : List (Nat × Nat)
  /-- The first words of a NAMED random stream (R39: "or for a named stream in a test"). Past the end of
  this list, and so everywhere when it is empty, the stream's words are the free value `Config.rngPort`. -/
  namedWords : List Word
  deriving DecidableEq, Repr

/-- The words the random-source port delivers (R39, U3): a free value. Nothing constrains it. -/
opaque Config.rngPort : Nat → Word

/-- What a read of an operand or key-bank word answers while BUSY = 1 (R22, R37, U1): a free value, a
fresh one for each draw of `State.drawPos`. -/
opaque Config.busyReadValue : Nat → Word

/-- How many random words a command took before a reset abandoned it (R271, U4): a free value. -/
opaque Config.abandonedDraws : Nat → Nat

namespace Config

/-- `MR_ROUNDS` (R6, D23). -/
def mrRounds : Nat := 50

/-- `NX`, the number of operand registers (R6, D3). -/
def operandCount : Nat := 8

/-- `E_START`, the first public exponent tried (R6). -/
def eStart : Nat := 65537

/-- `WW = W / 32`, the words of one register (R7). -/
def words (c : Config) : Nat := c.width / 32

/-- `WB = W / 8`, the bytes of one register (R7). -/
def bytes (c : Config) : Nat := c.width / 8

/-- `MAX_TRIALS(L)` (R6, R145). -/
def maxTrials (c : Config) (l : Nat) : Nat := (c.trialBounds.lookup l).getD (64 * l)

/-- Word number `n` of the random source's stream (R39). -/
def stream (c : Config) (n : Nat) : Word := (c.namedWords[n]?).getD (rngPort n)

/-- The ranges of R6 for W and E_LIMIT. "A model must reject a configuration with W outside its range." -/
def legal (c : Config) : Bool :=
  decide (c.width % 32 = 0) && decide (64 ≤ c.width) && decide (c.width ≤ 8192)
    && decide (eStart < c.eLimit) && decide (c.eLimit ≤ 2 ^ 64)

/-- The default values of R6. BASE has no default in the spec: 0 is a DESIGN CHOICE (log entry 2). -/
def default : Config :=
  { width := 2048, base := 0, eLimit := 75537, trialBounds := [], namedWords := [] }

end Config
end Sys2Proof
end

