-- ==== Sys2Proof/Syntax.lean ====
section
/-! DEFINITION. The commands, one constructor per row of the opcode table, and the raw fields of format C. -/

namespace Sys2Proof

/-- The index of an operand register X0 to X7. All eight are legal in every register field (R92). -/
abbrev Reg := Fin 8

/-- The twelve commands of R95. A constructor's arguments are the register fields its opcode uses, in
field order RD, RS1, RS2, RS3, RS4, RS5. A command has no immediate (R93). -/
inductive Instr where
  /-- R127 -/
  | nop
  /-- R183: RD, RS1 = a, RS2 = b, RS3 = n -/
  | modmul (rd rs1 rs2 rs3 : Reg)
  /-- R181: RD, RS1 = a, RS2 = b, RS3 = n -/
  | montmul (rd rs1 rs2 rs3 : Reg)
  /-- R184: RD, RS1 = base, RS2 = exponent, RS3 = modulus -/
  | modexp (rd rs1 rs2 rs3 : Reg)
  /-- R220: RD, RS1 = mp, RS2 = mq, RS3 = p, RS4 = q, RS5 = qInv -/
  | crtRecombine (rd rs1 rs2 rs3 rs4 rs5 : Reg)
  /-- R141: RD, RS1 = n, RS2 = a -/
  | mrRound (rd rs1 rs2 : Reg)
  /-- R143: RD, RS1 = n -/
  | mrTest (rd rs1 : Reg)
  /-- R145: RD -/
  | primegen (rd : Reg)
  /-- R147: RS1 = p, RS2 = q -/
  | keyderive (rs1 rs2 : Reg)
  /-- R148 -/
  | keygen
  /-- R210: RD, RS1 = m -/
  | encBlock (rd rs1 : Reg)
  /-- R221: RD, RS1 = c -/
  | decBlock (rd rs1 : Reg)
  deriving DecidableEq, Repr

/-- The fields of format C (R91), of any word, well-formed or not. -/
structure Fields where
  op  : BitVec 6
  rd  : BitVec 3
  rs1 : BitVec 3
  rs2 : BitVec 3
  rs3 : BitVec 3
  rs4 : BitVec 3
  rs5 : BitVec 3
  rsv : BitVec 8
  deriving DecidableEq, Repr

/-- Which register fields an opcode uses (the "fields used" column of R95). -/
structure FieldUse where
  rd  : Bool
  rs1 : Bool
  rs2 : Bool
  rs3 : Bool
  rs4 : Bool
  rs5 : Bool
  deriving DecidableEq, Repr

/-- Why a word is no command. Both complete with E_BADCMD (R126). -/
inductive Reject where
  /-- OP is 0x0C to 0x3F (R96). -/
  | reservedOpcode
  /-- OP is assigned, but an unused field or RSV is not 0 (R94). -/
  | malformed
  deriving DecidableEq, Repr

end Sys2Proof
end

