-- ==== Sys2Proof/Machine/State.lean ====
section
/-! DEFINITION. The state of one core (R20), the inputs that reach it, and why a step can stop. -/

namespace Sys2Proof.Machine

/-- The nine key-bank registers, in the index order of R35. -/
inductive KeyReg where
  | p | q | n | phi | e | d | dp | dq | qinv
  deriving DecidableEq, Repr

/-- The key bank (R35): nine W-bit registers, each an unsigned integer in [0, 2^W). -/
structure KeyBank where
  p    : Nat
  q    : Nat
  n    : Nat
  phi  : Nat
  e    : Nat
  d    : Nat
  dp   : Nat
  dq   : Nat
  qinv : Nat
  deriving DecidableEq, Repr

/-- The errors a command can end with (R241, codes 1 to 11). -/
inductive ErrorCode where
  | generation | keygen | blockTooLarge | decryption | badCmd | modulus | operand
  | noKey | keyLocked | config | overflow
  deriving DecidableEq, Repr

/-- Why the core stops the access of a host: the bus error of R63 to R66. A bus error is a fault OF ONE
HOST ACCESS: the core answers the access with it, nothing of the core changes, and the core goes on. So it
is carried in `State.reply` and no step ends in it (log entry 5). -/
inductive Fault where
  /-- An access of a width other than 32 bits (R63). Raised by `busAccess`, as a reply. Safe. -/
  | busErrorWidth
  /-- A 32-bit access whose offset is no multiple of 4 (R64). Raised by `busAccess`, as a reply. Safe. -/
  | busErrorMisaligned
  /-- An access to an unmapped offset of the window (R65). Raised by `busAccess`, as a reply. Safe. -/
  | busErrorUnmapped
  deriving DecidableEq, Repr

/-- What the model has no meaning for. -/
inductive Refusal where
  /-- An instruction without a meaning yet. Raised by `exec`'s arms only. Safe. No arm raises it now. -/
  | notModelled (mnemonic : String)
  /-- An access below BASE or at or above BASE + 0x5400: "A model of the core alone has no such access
  (`refuse`)" (U10, R60). Raised by `busAccess`. Safe. -/
  | outsideWindow
  /-- Parameters outside the ranges of R6: "A model must reject a configuration with W outside its range".
  Raised by `step`. Safe. -/
  | illegalConfiguration
  deriving DecidableEq, Repr

/-- One host access (R3 (a), R63): its width in bits, its bus address, and for a write the word written.
Only 32-bit accesses are admitted, so the data of a write of another width is never looked at. -/
inductive Access where
  | read (bits addr : Nat)
  | write (bits addr : Nat) (data : Word)
  deriving DecidableEq, Repr

/-- What reaches the core, in the one total order of R71 and R244. -/
inductive Event where
  /-- An access of some host (R71, R73). -/
  | access (a : Access)
  /-- The engine takes its completion step here (R122, R125). -/
  | complete
  /-- The platform applies reset (R270). -/
  | reset
  deriving DecidableEq, Repr

/-- The core's answer to one host access. -/
inductive BusReply where
  /-- The word a read returns. -/
  | data (v : Word)
  /-- A write was taken, dropped (R69) or ignored (R68): none of these is an error on the bus. -/
  | written
  /-- A bus error (R66): no data, no change. -/
  | busError (f : Fault)
  deriving DecidableEq, Repr

/-- One core and the inputs that are on their way to it. The fields down to `rngPos` are the architectural
state of R20 (each with its rule); those after it are the model's own. -/
structure State where
  /-- The parameters of R6. No step changes them. -/
  cfg : Config
  /-- X0 to X7 (R21), each in [0, 2^W). -/
  x : Vector Nat 8
  /-- STATUS.BUSY (R25) -/
  busy : Bool
  /-- STATUS.DONE (R26) -/
  done : Bool
  /-- STATUS.ERR (R27) -/
  err : Bool
  /-- STATUS.KEY_VALID (R28) -/
  keyValid : Bool
  /-- STATUS.WIGN (R29) -/
  wign : Bool
  /-- ERRCODE bits 7:0 (R30) -/
  errcode : BitVec 8
  /-- CTRL (R31) -/
  ctrl : Word
  /-- CONFIG.BITLEN (R32) -/
  configBitlen : BitVec 16
  /-- The key bank (R35) -/
  key : KeyBank
  /-- PENDING (R38): the accepted command word, or none -/
  pending : Option Word
  /-- RNGPOS (R39): the words taken from the random source -/
  rngPos : Nat
  /-- MODEL'S OWN: what reaches the core next, in the order of R71. It is the oracle for the order of host
  accesses, completion steps and resets (U2, U11, U12). -/
  events : List Event
  /-- MODEL'S OWN: the core's answer to the last host access. -/
  reply : Option BusReply
  /-- MODEL'S OWN: the counter of free-value draws (U1, U4). -/
  drawPos : Nat
  deriving DecidableEq, Repr

/-- Reset value of the key bank: all nine registers 0 (R35, R41). -/
def KeyBank.zero : KeyBank := ⟨0, 0, 0, 0, 0, 0, 0, 0, 0⟩

/-- The reset value of CONFIG.BITLEN, min(1024, W/2) (R32, R41). -/
def resetBitlen (c : Config) : BitVec 16 := BitVec.ofNat 16 (min 1024 (c.width / 2))

/-- A core with parameters `c` after its first reset (R41, R270), with no input on its way. RNGPOS is not
reset by the core: that the stream is at its word 0 is the start of counting (log entry 3). -/
def State.powerOn (c : Config) : State :=
  { cfg := c
    x := Vector.replicate 8 0
    busy := false
    done := false
    err := false
    keyValid := false
    wign := false
    errcode := 0
    ctrl := 0
    configBitlen := resetBitlen c
    key := KeyBank.zero
    pending := none
    rngPos := 0
    events := []
    reply := none
    drawPos := 0 }

/-- The machine right after reset, with the default parameters of R6. -/
def State.reset : State := State.powerOn Config.default

/-- The outcome of a step of this machine. -/
abbrev Result := Host.Outcome State Fault Refusal

end Sys2Proof.Machine
end

