-- ==== Sys2Proof/Machine/Flags.lean ====
section
/-! DEFINITION. The words of the control registers: STATUS, ERRCODE, CONFIG, ID and PARAM, and the error
codes (R24 to R34, R241). -/

namespace Sys2Proof.Machine

/-- The number of an error (R241). -/
def ErrorCode.code : ErrorCode → BitVec 8
  | .generation    => 1
  | .keygen        => 2
  | .blockTooLarge => 3
  | .decryption    => 4
  | .badCmd        => 5
  | .modulus       => 6
  | .operand       => 7
  | .noKey         => 8
  | .keyLocked     => 9
  | .config        => 10
  | .overflow      => 11

/-- The STATUS word (R24): BUSY in bit 0, DONE 1, ERR 2, KEY_VALID 3, WIGN 4, the rest 0. -/
def statusWord (s : State) : Word :=
  0#27 ++ BitVec.ofBool s.wign ++ BitVec.ofBool s.keyValid ++ BitVec.ofBool s.err
    ++ BitVec.ofBool s.done ++ BitVec.ofBool s.busy

/-- The ERRCODE word (R30): bits 31:8 are 0. -/
def errcodeWord (s : State) : Word := s.errcode.setWidth 32

/-- The CONFIG word (R32): bits 31:16 are 0. -/
def configWord (s : State) : Word := s.configBitlen.setWidth 32

/-- BITLEN of a word written to CONFIG (R32, R69): bits 15:0, bits 31:16 ignored. -/
def bitlenOfWord (v : Word) : BitVec 16 := v.extractLsb' 0 16

/-- ID (R33). -/
def idWord : Word := 0x52534131

/-- PARAM (R34): WW in bits 15:0, MR_ROUNDS in 23:16, NX in 31:24. -/
def paramWord (c : Config) : Word :=
  BitVec.ofNat 8 Config.operandCount ++ BitVec.ofNat 8 Config.mrRounds ++ BitVec.ofNat 16 c.words

end Sys2Proof.Machine
end

