-- ==== Sys2Proof/Machine/Operands.lean ====
section
/-! DEFINITION. Operands: the registers a command names (R92), the words of a register slot (R61) and the
locations of the register window (R60). -/

namespace Sys2Proof.Machine

/-- `X[i]` (R11). -/
def State.reg (s : State) (r : Reg) : Nat := s.x[r]

/-- `X[i] <- v` (R11). -/
def State.setReg (s : State) (r : Reg) (v : Nat) : State := { s with x := s.x.set r v }

/-- A key-bank register (R35). -/
def KeyBank.get (k : KeyBank) : KeyReg → Nat
  | .p    => k.p
  | .q    => k.q
  | .n    => k.n
  | .phi  => k.phi
  | .e    => k.e
  | .d    => k.d
  | .dp   => k.dp
  | .dq   => k.dq
  | .qinv => k.qinv

/-- The key-bank register of an index (R35). -/
def KeyReg.ofIndex : Nat → Option KeyReg
  | 0 => some .p
  | 1 => some .q
  | 2 => some .n
  | 3 => some .phi
  | 4 => some .e
  | 5 => some .d
  | 6 => some .dp
  | 7 => some .dq
  | 8 => some .qinv
  | _ => none

/-- The index of a key-bank register (R35). -/
def KeyReg.index : KeyReg → Nat
  | .p    => 0
  | .q    => 1
  | .n    => 2
  | .phi  => 3
  | .e    => 4
  | .d    => 5
  | .dp   => 6
  | .dq   => 7
  | .qinv => 8

/-! ## Words of a slot -/

/-- The exponent W - 32 - 32 * j of R61: word `j` of a slot holds the bits from it on. -/
def wordShift (w j : Nat) : Nat := w - 32 - 32 * j

/-- Word `j` of a register that holds `v` (R61): word 0 is the most significant. -/
def slotWord (w v j : Nat) : Word := BitVec.ofNat 32 (v / 2 ^ wordShift w j % 2 ^ 32)

/-- The register value after word `j` is written with `u` (R61). -/
def setSlotWord (w v j : Nat) (u : Word) : Nat :=
  v - v / 2 ^ wordShift w j % 2 ^ 32 * 2 ^ wordShift w j + u.toNat * 2 ^ wordShift w j

/-! ## Locations of the window -/

/-- What an admitted offset names (R60). -/
inductive Loc where
  | id | param | ctrl | status | errcode | config
  | operand (r : Reg) (j : Nat)
  | keyWord (k : KeyReg) (j : Nat)
  deriving DecidableEq, Repr

/-- The size of the window (R60). -/
def windowBytes : Nat := 0x5400

/-- The location at an aligned window offset, none where the offset is unmapped (R60, R61, R65). -/
def locate (ww off : Nat) : Option Loc :=
  if off < 0x1000 then
    match off with
    | 0x000 => some .id
    | 0x004 => some .param
    | 0x008 => some .ctrl
    | 0x00C => some .status
    | 0x010 => some .errcode
    | 0x014 => some .config
    | _ => none
  else if off % 0x400 / 4 < ww then
    if off < 0x3000 then some (.operand (Fin.ofNat 8 ((off - 0x1000) / 0x400)) (off % 0x400 / 4))
    else (KeyReg.ofIndex ((off - 0x3000) / 0x400)).map (fun k => .keyWord k (off % 0x400 / 4))
  else none

/-- The offset of a location (R60, R61). -/
def Loc.offset : Loc → Nat
  | .id => 0x000
  | .param => 0x004
  | .ctrl => 0x008
  | .status => 0x00C
  | .errcode => 0x010
  | .config => 0x014
  | .operand r j => 0x1000 + 0x400 * r.val + 4 * j
  | .keyWord k j => 0x3000 + 0x400 * k.index + 4 * j

/-- The word a location holds (R24, R30 to R34, R61). -/
def State.window (s : State) : Loc → Word
  | .id => idWord
  | .param => paramWord s.cfg
  | .ctrl => s.ctrl
  | .status => statusWord s
  | .errcode => errcodeWord s
  | .config => configWord s
  | .operand r j => slotWord s.cfg.width (s.reg r) j
  | .keyWord k j => slotWord s.cfg.width (s.key.get k) j

/-- An operand or key-bank word: what a read while BUSY = 1 leaves unspecified (R22, R37). -/
def Loc.isData : Loc → Bool
  | .operand _ _ => true
  | .keyWord _ _ => true
  | _ => false

/-- A location the host can write (R69): CTRL, CONFIG and the operand words. -/
def Loc.writable : Loc → Bool
  | .ctrl => true
  | .config => true
  | .operand _ _ => true
  | _ => false

end Sys2Proof.Machine
end

