-- ==== Sys2Proof/Machine/Arith.lean ====
section
/-! DEFINITION. The integer primitives of R9 and the arithmetic the command rules share, on unbounded
natural numbers (R8). Nothing wraps. -/

namespace Sys2Proof.Machine

/-- `bitlen(x)` (R9): the least k with x < 2^k. -/
def bitlen (x : Nat) : Nat := if x = 0 then 0 else Nat.log2 x + 1

/-- `bit(x, i)` (R9). -/
def bit (x i : Nat) : Nat := x / 2 ^ i % 2

/-- How many of the low `k` bits of `x` are 1. -/
def popcountBelow (x : Nat) : Nat → Nat
  | 0 => 0
  | k + 1 => popcountBelow x k + bit x k

/-- `popcount(x)` (R9). -/
def popcount (x : Nat) : Nat := popcountBelow x (bitlen x)

/-- `ceil(a / b)` (R9), for b > 0. -/
def ceilDiv (a b : Nat) : Nat := (a + b - 1) / b

/-! ## Modular inverse -/

/-- The extended Euclidean algorithm with its cofactor kept modulo `m`: while the second remainder is not
0, divide. `t₀`, `t₁` are the cofactors of the remainders `r₀`, `r₁`. The first argument is fuel. -/
def euclid (m : Nat) : Nat → Nat → Nat → Nat → Nat → Nat
  | 0, _, _, t₀, _ => t₀
  | fuel + 1, r₀, r₁, t₀, t₁ =>
    if r₁ = 0 then t₀
    else euclid m fuel r₁ (r₀ % r₁) t₁ ((t₀ + (m - r₀ / r₁ * t₁ % m)) % m)

/-- `inv(a, m)` (R9, D32), for m > 1: the unique v in [0, m) with (a * v) mod m = 1, or none when
gcd(a, m) is not 1. -/
def inv (a m : Nat) : Option Nat :=
  if Nat.gcd a m = 1 then some (euclid m (m + 1) m (a % m) 0 1) else none

/-! ## Modular exponentiation -/

/-- The loop of `modexp` (R184) over the low `i` bits of the exponent, most significant first, from the
intermediate result `r`. `b` is the reduced base. -/
def modexpLoop (b x m : Nat) : Nat → Nat → Nat
  | 0, r => r
  | i + 1, r =>
    let sq := r * r % m
    modexpLoop b x m i (if bit x i = 1 then sq * b % m else sq)

/-- `modexp(b, x, m)` (R184): left-to-right square-and-multiply. -/
def modexp (b x m : Nat) : Nat := modexpLoop (b % m) x m (bitlen x) 1

/-- The same loop counting its work (R185): the result, the squarings and the multiplications by `b`. -/
def modexpCounted (b x m : Nat) : Nat → Nat × Nat × Nat → Nat × Nat × Nat
  | 0, c => c
  | i + 1, (r, squares, products) =>
    let sq := r * r % m
    modexpCounted b x m i
      (if bit x i = 1 then (sq * b % m, squares + 1, products + 1) else (sq, squares + 1, products))

/-! ## Montgomery product -/

/-- `k(N)` (R180). -/
def montBits (n : Nat) : Nat := 32 * ceilDiv (bitlen n) 32

/-- The Montgomery radix `R(N)` (R180). -/
def montRadix (n : Nat) : Nat := 2 ^ montBits n

/-- `(a * b * inv(R(N), N)) mod N` (R181). For odd N > 1 the inverse exists (R180); the 0 that stands
where it does not is never reached by a command. -/
def montmul (a b n : Nat) : Nat := a * b * (inv (montRadix n) n).getD 0 % n

/-- Montgomery's reduction REDC, one way to compute `montmul` for a, b < N (the informative paragraph after
R182). No command uses it: the method is not observable (R186). -/
def redc (a b n : Nat) : Nat :=
  let r := montRadix n
  let n' := (r - (inv n r).getD 0) % r
  let u := a * b % r * n' % r
  let t := (a * b + u * n) / r
  if n ≤ t then t - n else t

/-! ## CRT recombination -/

/-- `h` of R220 and R221: `(((mq - mp) mod q) * qinv) mod q`. The subtraction is of integers and `mod` is
floored (R9, D45): for q > 0 it is the remainder in [0, q). -/
def crtH (mp mq q qinv : Nat) : Nat :=
  (((mq : Int) - (mp : Int)) % (q : Int)).toNat * qinv % q

/-- `m = mp + p * h` of R220 and R221. -/
def crtCombine (mp mq p q qinv : Nat) : Nat := mp + p * crtH mp mq q qinv

/-! ## Miller-Rabin round -/

/-- The loop of R140 that writes n - 1 = 2^s * t with t odd: the pair (t, s). The first argument is
fuel. -/
def splitTwos : Nat → Nat → Nat → Nat × Nat
  | 0, t, s => (t, s)
  | fuel + 1, t, s => if t % 2 = 0 then splitTwos fuel (t / 2) (s + 1) else (t, s)

/-- The squarings of R140: up to `k` of them, true as soon as one gives n - 1. -/
def mrSquares (n : Nat) : Nat → Nat → Bool
  | 0, _ => false
  | k + 1, x =>
    let y := x * x % n
    if y = n - 1 then true else mrSquares n k y

/-- `mr_round(n, a)` (R140), for odd n >= 5 and 2 <= a <= n - 2: true for 1, "n is a strong probable prime
to base a". -/
def mrRound (n a : Nat) : Bool :=
  let ts := splitTwos (bitlen n) (n - 1) 0
  let x := modexp a ts.1 n
  if x = 1 ∨ x = n - 1 then true else mrSquares n (ts.2 - 1) x

/-! ## Public exponent -/

/-- The loop of R146 from the candidate `e` on: none where it raises E_KEYGEN, that is where the next
candidate would not be below `limit`. The first argument is fuel; `limit` of it is enough. -/
def selectFrom (phi limit : Nat) : Nat → Nat → Option Nat
  | 0, _ => none
  | fuel + 1, e =>
    if Nat.gcd e phi = 1 then some e
    else if limit ≤ e + 1 then none
    else selectFrom phi limit fuel (e + 1)

end Sys2Proof.Machine
end

