-- ==== Sys2Proof/Machine/Random.lean ====
section
/-! DEFINITION. What draws from the random source: rng_words, bases, candidates, the probabilistic test and
the prime search (R11, R39, R142 to R145). Each takes the stream as an argument (R39) and the position of
the next word, and answers its value with the position after the words it took. -/

namespace Sys2Proof.Machine

/-- `rng_words(L)` (R11) from position `pos` on, continuing from `r`: the first word most significant. -/
def rngWords (stream : Nat → Word) : Nat → Nat → Nat → Nat
  | 0, _, r => r
  | k + 1, pos, r => rngWords stream k (pos + 1) (r * 2 ^ 32 + (stream pos).toNat)

/-- How many words one base for `n` takes (R142). -/
def baseWords (n : Nat) : Nat := ceilDiv (bitlen n) 32 + 1

/-- `draw_base(n)` (R142): a base in [2, n - 2], from the words at `pos`. -/
def drawBase (stream : Nat → Word) (n pos : Nat) : Nat :=
  2 + rngWords stream (baseWords n) pos 0 % (n - 3)

/-- Up to `k` Miller-Rabin rounds with drawn bases, stopping at the first witness (R143). -/
def mrRoundsFrom (stream : Nat → Word) (n : Nat) : Nat → Nat → Bool × Nat
  | 0, pos => (true, pos)
  | k + 1, pos =>
    if mrRound n (drawBase stream n pos) then mrRoundsFrom stream n k (pos + baseWords n)
    else (false, pos + baseWords n)

/-- `mr_test(n)` (R143). -/
def mrTest (stream : Nat → Word) (n pos : Nat) : Bool × Nat :=
  if n < 2 then (false, pos)
  else if n = 2 ∨ n = 3 then (true, pos)
  else if n % 2 = 0 then (false, pos)
  else mrRoundsFrom stream n Config.mrRounds pos

/-- How many words one candidate of `l` bits takes (R144). -/
def candidateWords (l : Nat) : Nat := ceilDiv l 32

/-- `c` with bit `i` forced to 1, as R144 writes it. -/
def forceBit (c i : Nat) : Nat := if bit c i = 0 then c + 2 ^ i else c

/-- `draw_candidate(L)` (R144): an odd integer of exactly `l` bits, from the words at `pos`. -/
def drawCandidate (stream : Nat → Word) (l pos : Nat) : Nat :=
  forceBit (forceBit (rngWords stream (candidateWords l) pos 0 % 2 ^ l) (l - 1)) 0

/-- `primegen(L)` (R145) with `k` trials left: the first candidate that passes, none when all fail. -/
def primegenFrom (stream : Nat → Word) (l : Nat) : Nat → Nat → Option Nat × Nat
  | 0, pos => (none, pos)
  | k + 1, pos =>
    let c := drawCandidate stream l pos
    let t := mrTest stream c (pos + candidateWords l)
    if t.1 then (some c, t.2) else primegenFrom stream l k t.2

/-- `primegen(L)` of a core with parameters `c` (R145). -/
def primegen (c : Config) (l pos : Nat) : Option Nat × Nat :=
  primegenFrom c.stream l (c.maxTrials l) pos

end Sys2Proof.Machine
end

