-- ==== Sys2Proof/Machine/Ops.lean ====
section
/-! DEFINITION. The shared operations of the command lifecycle: acceptance, the two ends of a command,
key installation and reset (R120 to R123, R149, R240, R270). -/

namespace Sys2Proof.Machine

/-- Acceptance of the word `w` (R120). It clears the error of the command before: this is the only "return"
from an error the core has (R248). It does not decode `w`. -/
def accept (w : Word) (s : State) : State :=
  { s with ctrl := w, pending := some w, busy := true, done := false, err := false, errcode := 0, wign := false }

/-- The last three lines of R122. -/
def retire (s : State) : State := { s with busy := false, done := true, pending := none }

/-- The command ends with `raise Error(code)` (R122, R240): no destination is written (R123). There is no
trap, nothing is saved and control goes nowhere (R247). -/
def raiseError (c : ErrorCode) (s : State) : State := retire { s with err := true, errcode := c.code }

/-- The state after a command's rule ended with `outcome` (R122): its destination writes applied, or an
error. Words the rule took from the random source stay taken on either outcome (D17), so `s` has them
counted already. -/
def concluded (s : State) (outcome : Except ErrorCode State) : State :=
  match outcome with
  | .ok t => retire t
  | .error c => raiseError c s

/-- The completion step of a command (R122). Every command completes (R280). -/
def conclude (s : State) (outcome : Except ErrorCode State) : Result := .next (concluded s outcome)

/-- RNGPOS after a rule took the words up to `pos` (R39, R122). -/
def tookWords (pos : Nat) (s : State) : State := { s with rngPos := pos }

/-- `install` (R149): the nine registers and KEY_VALID, in one step. -/
def install (k : KeyBank) (s : State) : State := { s with key := k, keyValid := true }

/-- RNGPOS after reset (R39, R271): unchanged, but after a reset that abandons a command any value not
below it. -/
def rngPosAfterReset (s : State) : Nat :=
  if s.busy then s.rngPos + Config.abandonedDraws s.drawPos else s.rngPos

/-- The platform applies reset (R270, R271). What is on its way to the core is not the core's, and stays. -/
def applyReset (s : State) : State :=
  { State.powerOn s.cfg with
    rngPos := rngPosAfterReset s
    drawPos := if s.busy then s.drawPos + 1 else s.drawPos
    events := s.events
    reply := s.reply }

end Sys2Proof.Machine
end

