-- ==== Sys2Proof/Machine/Bus.lean ====
section
/-! DEFINITION. Host accesses to the register window (20_memory.md, R60 to R69). -/

namespace Sys2Proof.Machine

/-- The core answers the access (R66, R67). -/
def answer (r : BusReply) (s : State) : State := { s with reply := some r }

/-- An admitted read (R67). It changes nothing of the core. An operand or key-bank word read while BUSY = 1
answers a fresh free value (R22, R37). -/
def readLoc (l : Loc) (s : State) : State :=
  if s.busy && l.isData then
    answer (.data (Config.busyReadValue s.drawPos)) { s with drawPos := s.drawPos + 1 }
  else answer (.data (s.window l)) s

/-- What an admitted write does while BUSY = 0 (R69). -/
def writeIdle (l : Loc) (v : Word) (s : State) : State :=
  match l with
  | .ctrl => accept v s
  | .config => { s with configBitlen := bitlenOfWord v }
  | .operand r j => s.setReg r (setSlotWord s.cfg.width (s.reg r) j v)
  | _ => s

/-- An admitted write (R68, R69): ignored at a read-only location, dropped with WIGN set while BUSY = 1. -/
def writeLoc (l : Loc) (v : Word) (s : State) : State :=
  answer .written <|
    if l.writable then
      if s.busy then { s with wign := true } else writeIdle l v s
    else s

/-- The location of an access of `bits` bits at window offset `off`, or the bus error (R63, R64, R65). The
three are one bus error on the bus; the order in which they are told apart is the model's. -/
def locateAccess (ww bits off : Nat) : Except Fault Loc :=
  if bits = 32 then
    if off % 4 = 0 then
      match locate ww off with
      | some l => .ok l
      | none => .error .busErrorUnmapped
    else .error .busErrorMisaligned
  else .error .busErrorWidth

/-- The window offset of a bus address (R60), none where the address is not the core's. -/
def windowOffset (c : Config) (addr : Nat) : Option Nat :=
  if c.base ≤ addr ∧ addr < c.base + windowBytes then some (addr - c.base) else none

/-- An access at a window offset: its location's read or write, or a bus error that changes nothing of the
core (R66). -/
def serve (bits off : Nat) (act : Loc → State → State) (s : State) : State :=
  match locateAccess s.cfg.words bits off with
  | .ok l => act l s
  | .error f => answer (.busError f) s

/-- One host access (R60 to R69). An address outside the window is not the core's (U10). -/
def busAccess (a : Access) (s : State) : Result :=
  match a with
  | .read bits addr =>
    match windowOffset s.cfg addr with
    | some off => .next (serve bits off readLoc s)
    | none => .refused .outsideWindow
  | .write bits addr v =>
    match windowOffset s.cfg addr with
    | some off => .next (serve bits off (fun l => writeLoc l v) s)
    | none => .refused .outsideWindow

end Sys2Proof.Machine
end

