-- ==== Sys2Proof/WellFormed.lean ====
section
/-! DEFINITION. When the fields of a word are those of a command: R94, R95 and R96 read field by field.
(The decoder tests the match and mask of R95 instead; that the two agree is an obligation.) -/

namespace Sys2Proof

/-- The "fields used" column of R95. `none` for the reserved opcodes 0x0C to 0x3F (R96). -/
def fieldUse (op : BitVec 6) : Option FieldUse :=
  match op.toNat with
  | 0x00 => some ⟨false, false, false, false, false, false⟩
  | 0x01 => some ⟨true, true, true, true, false, false⟩
  | 0x02 => some ⟨true, true, true, true, false, false⟩
  | 0x03 => some ⟨true, true, true, true, false, false⟩
  | 0x04 => some ⟨true, true, true, true, true, true⟩
  | 0x05 => some ⟨true, true, true, false, false, false⟩
  | 0x06 => some ⟨true, true, false, false, false, false⟩
  | 0x07 => some ⟨true, false, false, false, false, false⟩
  | 0x08 => some ⟨false, true, true, false, false, false⟩
  | 0x09 => some ⟨false, false, false, false, false, false⟩
  | 0x0A => some ⟨true, true, false, false, false, false⟩
  | 0x0B => some ⟨true, true, false, false, false, false⟩
  | _ => none

/-- A field an opcode does not use must be 0 (R94). -/
def fieldOk (used : Bool) (v : BitVec 3) : Bool := used || v == 0

/-- OP is assigned, every unused field is 0 and RSV is 0 (R94, R95, R96). -/
def Fields.wellFormed (f : Fields) : Bool :=
  match fieldUse f.op with
  | none => false
  | some u =>
    f.rsv == 0 && fieldOk u.rd f.rd && fieldOk u.rs1 f.rs1 && fieldOk u.rs2 f.rs2
      && fieldOk u.rs3 f.rs3 && fieldOk u.rs4 f.rs4 && fieldOk u.rs5 f.rs5

end Sys2Proof
end

