-- ==== Sys2Proof/Decode.lean ====
section
/-! DEFINITION. Decoding a command word (R91, R95, R126), total on every word, and the encoder. -/

namespace Sys2Proof

/-- Field extraction of R91. -/
def Fields.ofWord (w : Word) : Fields :=
  { op  := w.extractLsb' 0 6
    rd  := w.extractLsb' 6 3
    rs1 := w.extractLsb' 9 3
    rs2 := w.extractLsb' 12 3
    rs3 := w.extractLsb' 15 3
    rs4 := w.extractLsb' 18 3
    rs5 := w.extractLsb' 21 3
    rsv := w.extractLsb' 24 8 }

/-- The operand register a 3-bit field selects (R92). -/
def toReg (v : BitVec 3) : Reg := v.toFin

/-- `(w & mask) = match` of R126: the command if it holds, malformed if not. -/
def checked (w mask mtch : Word) (i : Instr) : Except Reject Instr :=
  if w &&& mask = mtch then .ok i else .error .malformed

/-- Decode a command word (R126) by the match and mask columns of R95. -/
def decode (w : Word) : Except Reject Instr :=
  let f := Fields.ofWord w
  match f.op.toNat with
  | 0x00 => checked w 0xFFFFFFFF 0x00000000 .nop
  | 0x01 => checked w 0xFFFC003F 0x00000001 (.modmul (toReg f.rd) (toReg f.rs1) (toReg f.rs2) (toReg f.rs3))
  | 0x02 => checked w 0xFFFC003F 0x00000002 (.montmul (toReg f.rd) (toReg f.rs1) (toReg f.rs2) (toReg f.rs3))
  | 0x03 => checked w 0xFFFC003F 0x00000003 (.modexp (toReg f.rd) (toReg f.rs1) (toReg f.rs2) (toReg f.rs3))
  | 0x04 => checked w 0xFF00003F 0x00000004
      (.crtRecombine (toReg f.rd) (toReg f.rs1) (toReg f.rs2) (toReg f.rs3) (toReg f.rs4) (toReg f.rs5))
  | 0x05 => checked w 0xFFFF803F 0x00000005 (.mrRound (toReg f.rd) (toReg f.rs1) (toReg f.rs2))
  | 0x06 => checked w 0xFFFFF03F 0x00000006 (.mrTest (toReg f.rd) (toReg f.rs1))
  | 0x07 => checked w 0xFFFFFE3F 0x00000007 (.primegen (toReg f.rd))
  | 0x08 => checked w 0xFFFF81FF 0x00000008 (.keyderive (toReg f.rs1) (toReg f.rs2))
  | 0x09 => checked w 0xFFFFFFFF 0x00000009 .keygen
  | 0x0A => checked w 0xFFFFF03F 0x0000000A (.encBlock (toReg f.rd) (toReg f.rs1))
  | 0x0B => checked w 0xFFFFF03F 0x0000000B (.decBlock (toReg f.rd) (toReg f.rs1))
  | _ => .error .reservedOpcode

/-- The instruction the decoder reads from a table word: `w`'s low `nbits` bits, every bit above them 0.
Every command is one 32-bit word (R90). -/
def decodeTableWord (nbits w : Nat) : Option Instr :=
  match decode (BitVec.ofNat 32 (w % 2 ^ nbits)) with
  | .ok i => some i
  | .error _ => none

/-! ## The encoder -/

/-- The 3-bit field of an operand register (R92). -/
def ofReg (r : Reg) : BitVec 3 := BitVec.ofNat 3 r.val

/-- The format C fields of a command: its OP and its used fields (R95), every other field 0 (R94). -/
def Instr.fields : Instr → Fields
  | .nop => ⟨0x00, 0, 0, 0, 0, 0, 0, 0⟩
  | .modmul rd a b n => ⟨0x01, ofReg rd, ofReg a, ofReg b, ofReg n, 0, 0, 0⟩
  | .montmul rd a b n => ⟨0x02, ofReg rd, ofReg a, ofReg b, ofReg n, 0, 0, 0⟩
  | .modexp rd b x m => ⟨0x03, ofReg rd, ofReg b, ofReg x, ofReg m, 0, 0, 0⟩
  | .crtRecombine rd mp mq p q qi => ⟨0x04, ofReg rd, ofReg mp, ofReg mq, ofReg p, ofReg q, ofReg qi, 0⟩
  | .mrRound rd n a => ⟨0x05, ofReg rd, ofReg n, ofReg a, 0, 0, 0, 0⟩
  | .mrTest rd n => ⟨0x06, ofReg rd, ofReg n, 0, 0, 0, 0, 0⟩
  | .primegen rd => ⟨0x07, ofReg rd, 0, 0, 0, 0, 0, 0⟩
  | .keyderive p q => ⟨0x08, 0, ofReg p, ofReg q, 0, 0, 0, 0⟩
  | .keygen => ⟨0x09, 0, 0, 0, 0, 0, 0, 0⟩
  | .encBlock rd m => ⟨0x0A, ofReg rd, ofReg m, 0, 0, 0, 0, 0⟩
  | .decBlock rd c => ⟨0x0B, ofReg rd, ofReg c, 0, 0, 0, 0, 0⟩

/-- The word of format C that holds the given fields: each at the bit position R91 gives it. -/
def Fields.toWord (f : Fields) : Word :=
  BitVec.ofNat 32 (f.op.toNat + f.rd.toNat * 2 ^ 6 + f.rs1.toNat * 2 ^ 9 + f.rs2.toNat * 2 ^ 12
    + f.rs3.toNat * 2 ^ 15 + f.rs4.toNat * 2 ^ 18 + f.rs5.toNat * 2 ^ 21 + f.rsv.toNat * 2 ^ 24)

/-- The command word of an instruction. -/
def encode (i : Instr) : Word := i.fields.toWord

/-- An instruction is well-formed when its fields are (R94). Every instruction is: R92 makes all eight
indices legal, and the type of an instruction holds its used fields only. -/
def Instr.wellFormed (i : Instr) : Bool := i.fields.wellFormed

end Sys2Proof
end

