-- ==== Sys2Proof/Machine/Block.lean ====
section
/-! DEFINITION. ENC_BLOCK (43_block.md). -/

namespace Sys2Proof.Machine

/-- ENC_BLOCK (R210). -/
def execEncBlock (rd rs1 : Reg) (s : State) : Result :=
  conclude s <|
    if s.keyValid = false then .error .noKey
    else if s.key.n ≤ s.reg rs1 then .error .blockTooLarge
    else .ok (s.setReg rd (modexp (s.reg rs1) s.key.e s.key.n))

end Sys2Proof.Machine
end

