-- ==== Sys2Proof/Machine/Control.lean ====
section
/-! DEFINITION. NOP (40_control.md). -/

namespace Sys2Proof.Machine

/-- NOP (R127): no destination writes. -/
def execNop (s : State) : Result := conclude s (.ok s)

end Sys2Proof.Machine
end

