-- ==== Sys2Proof/Machine/Crt.lean ====
section
/-! DEFINITION. CRT_RECOMBINE and DEC_BLOCK (44_crt.md). -/

namespace Sys2Proof.Machine

/-- CRT_RECOMBINE (R220): RS1 = mp, RS2 = mq, RS3 = p, RS4 = q, RS5 = qInv. -/
def execCrtRecombine (rd rs1 rs2 rs3 rs4 rs5 : Reg) (s : State) : Result :=
  conclude s <|
    if s.reg rs4 < 2 then .error .modulus
    else
      let m := crtCombine (s.reg rs1) (s.reg rs2) (s.reg rs3) (s.reg rs4) (s.reg rs5)
      if 2 ^ s.cfg.width ≤ m then .error .overflow else .ok (s.setReg rd m)

/-- The CRT decryption of `c` with the key `k` (R221, the source's crtDecrypt). -/
def crtDecrypt (k : KeyBank) (c : Nat) : Nat :=
  crtCombine (modexp (c % k.p) k.dp k.p) (modexp (c % k.q) k.dq k.q) k.p k.q k.qinv

/-- DEC_BLOCK (R221). -/
def execDecBlock (rd rs1 : Reg) (s : State) : Result :=
  conclude s <|
    if s.keyValid = false then .error .noKey
    else if s.key.n ≤ s.reg rs1 then .error .decryption
    else .ok (s.setReg rd (crtDecrypt s.key (s.reg rs1)))

end Sys2Proof.Machine
end

