-- ==== Sys2Proof/Machine/Keygen.lean ====
section
/-! DEFINITION. MR_ROUND, MR_TEST, PRIMEGEN, KEYDERIVE and KEYGEN (41_keygen.md). -/

namespace Sys2Proof.Machine

/-- MR_ROUND (R141). -/
def execMrRound (rd rs1 rs2 : Reg) (s : State) : Result :=
  conclude s <|
    if s.reg rs1 < 5 ∨ s.reg rs1 % 2 = 0 then .error .operand
    else if s.reg rs2 < 2 ∨ s.reg rs1 - 2 < s.reg rs2 then .error .operand
    else .ok (s.setReg rd (mrRound (s.reg rs1) (s.reg rs2)).toNat)

/-- MR_TEST (R143). -/
def execMrTest (rd rs1 : Reg) (s : State) : Result :=
  let t := mrTest s.cfg.stream (s.reg rs1) s.rngPos
  let s' := tookWords t.2 s
  conclude s' (.ok (s'.setReg rd t.1.toNat))

/-- CONFIG.BITLEN is in [8, W/2] (R32). -/
def bitlenLegal (s : State) : Bool :=
  decide (8 ≤ s.configBitlen.toNat) && decide (s.configBitlen.toNat ≤ s.cfg.width / 2)

/-- PRIMEGEN (R145). -/
def execPrimegen (rd : Reg) (s : State) : Result :=
  if bitlenLegal s then
    let g := primegen s.cfg s.configBitlen.toNat s.rngPos
    let s' := tookWords g.2 s
    conclude s' <|
      match g.1 with
      | none => .error .generation
      | some c => .ok (s'.setReg rd c)
  else conclude s (.error .config)

/-- `select_e(phi)` (R146): the least e in [E_START, E_LIMIT) that is coprime to `phi`. -/
def selectE (c : Config) (phi : Nat) : Except ErrorCode Nat :=
  match selectFrom phi c.eLimit c.eLimit Config.eStart with
  | none => .error .keygen
  | some e => .ok e

/-- `derive(p, q)` (R147), with its checks in the order of R243. -/
def derive (c : Config) (p q : Nat) : Except ErrorCode KeyBank :=
  if p < 3 ∨ q < 3 then .error .keygen
  else if 2 ^ c.width ≤ p * q then .error .keygen
  else
    let phi := (p - 1) * (q - 1)
    match selectE c phi with
    | .error x => .error x
    | .ok e =>
      match inv e phi with
      | none => .error .keygen
      | some d =>
        match inv p q with
        | none => .error .keygen
        | some qinv =>
          .ok { p := p, q := q, n := p * q, phi := phi, e := e, d := d,
                dp := d % (p - 1), dq := d % (q - 1), qinv := qinv }

/-- `derive` and then `install` (R147, R149). -/
def deriveAndInstall (p q : Nat) (s : State) : Except ErrorCode State :=
  match derive s.cfg p q with
  | .error x => .error x
  | .ok k => .ok (install k s)

/-- KEYDERIVE (R147). -/
def execKeyderive (rs1 rs2 : Reg) (s : State) : Result :=
  conclude s <|
    if s.keyValid = true then .error .keyLocked
    else deriveAndInstall (s.reg rs1) (s.reg rs2) s

/-- The primes of KEYGEN (R148, D47): p first, then q from the words after it; the position after them. -/
def drawPrimes (c : Config) (l pos : Nat) : Option (Nat × Nat) × Nat :=
  let gp := primegen c l pos
  match gp.1 with
  | none => (none, gp.2)
  | some p =>
    let gq := primegen c l gp.2
    match gq.1 with
    | none => (none, gq.2)
    | some q => (some (p, q), gq.2)

/-- KEYGEN (R148). -/
def execKeygen (s : State) : Result :=
  if s.keyValid = true then conclude s (.error .keyLocked)
  else if bitlenLegal s then
    let g := drawPrimes s.cfg s.configBitlen.toNat s.rngPos
    let s' := tookWords g.2 s
    conclude s' <|
      match g.1 with
      | none => .error .generation
      | some pq => deriveAndInstall pq.1 pq.2 s'
  else conclude s (.error .config)

end Sys2Proof.Machine
end

