-- ==== Sys2Proof/Machine/Modexp.lean ====
section
/-! DEFINITION. MODMUL, MONTMUL and MODEXP (42_modexp.md). -/

namespace Sys2Proof.Machine

/-- MODMUL (R183). -/
def execModmul (rd rs1 rs2 rs3 : Reg) (s : State) : Result :=
  conclude s <|
    if s.reg rs3 < 2 then .error .modulus
    else .ok (s.setReg rd (s.reg rs1 * s.reg rs2 % s.reg rs3))

/-- MONTMUL (R181). -/
def execMontmul (rd rs1 rs2 rs3 : Reg) (s : State) : Result :=
  conclude s <|
    if s.reg rs3 < 2 ∨ s.reg rs3 % 2 = 0 then .error .modulus
    else if s.reg rs3 ≤ s.reg rs1 ∨ s.reg rs3 ≤ s.reg rs2 then .error .operand
    else .ok (s.setReg rd (montmul (s.reg rs1) (s.reg rs2) (s.reg rs3)))

/-- MODEXP (R184). -/
def execModexp (rd rs1 rs2 rs3 : Reg) (s : State) : Result :=
  conclude s <|
    if s.reg rs3 < 2 then .error .modulus
    else .ok (s.setReg rd (modexp (s.reg rs1) (s.reg rs2) (s.reg rs3)))

end Sys2Proof.Machine
end

