-- ==== Sys2Proof/Machine/Dispatch.lean ====
section
/-! DEFINITION. The dispatch of a decoded command to its meaning (R126). -/

namespace Sys2Proof.Machine

def exec (i : Instr) (s : State) : Host.Outcome State Fault Refusal :=
  match i with
  -- 40_control.md
  | .nop => Sys2Proof.Machine.execNop s
  -- 42_modexp.md
  | .modmul rd rs1 rs2 rs3 => Sys2Proof.Machine.execModmul rd rs1 rs2 rs3 s
  | .montmul rd rs1 rs2 rs3 => Sys2Proof.Machine.execMontmul rd rs1 rs2 rs3 s
  | .modexp rd rs1 rs2 rs3 => Sys2Proof.Machine.execModexp rd rs1 rs2 rs3 s
  -- 44_crt.md
  | .crtRecombine rd rs1 rs2 rs3 rs4 rs5 => Sys2Proof.Machine.execCrtRecombine rd rs1 rs2 rs3 rs4 rs5 s
  -- 41_keygen.md
  | .mrRound rd rs1 rs2 => Sys2Proof.Machine.execMrRound rd rs1 rs2 s
  | .mrTest rd rs1 => Sys2Proof.Machine.execMrTest rd rs1 s
  | .primegen rd => Sys2Proof.Machine.execPrimegen rd s
  | .keyderive rs1 rs2 => Sys2Proof.Machine.execKeyderive rs1 rs2 s
  | .keygen => Sys2Proof.Machine.execKeygen s
  -- 43_block.md
  | .encBlock rd rs1 => Sys2Proof.Machine.execEncBlock rd rs1 s
  -- 44_crt.md
  | .decBlock rd rs1 => Sys2Proof.Machine.execDecBlock rd rs1 s

end Sys2Proof.Machine
end

