-- ==== Sys2Proof/Machine/Engine.lean ====
section
/-! DEFINITION. The engine: it completes the accepted command (R122, R126). -/

namespace Sys2Proof.Machine

/-- The completion step of the accepted word `w` (R122): decode it, then its rule. A word that is no
command ends with E_BADCMD (R126). -/
def completeWord (w : Word) (s : State) : Result :=
  match decode w with
  | .ok i => exec i s
  | .error _ => conclude s (.error .badCmd)

/-- The engine's turn: with a command accepted and not completed, its completion step (R122); with none it
does nothing (R255). -/
def engineTurn (s : State) : Result :=
  match s.busy, s.pending with
  | true, some w => completeWord w s
  | _, _ => .next s

end Sys2Proof.Machine
end

