-- ==== Sys2Proof/Machine/Step.lean ====
section
/-! DEFINITION. One step of the machine: the next event of the one total order of R71 and R244. -/

namespace Sys2Proof.Machine

/-- One step. It takes the next event; with none on its way the engine has its turn, so that an accepted
command completes (R125). A machine with illegal parameters is refused (R6). -/
def step (s : State) : Host.Outcome State Fault Refusal :=
  if s.cfg.legal then
    match s.events with
    | [] => engineTurn s
    | .access a :: rest => busAccess a { s with events := rest }
    | .complete :: rest => engineTurn { s with events := rest }
    | .reset :: rest => .next (applyReset { s with events := rest })
  else .refused .illegalConfiguration

/-- `s` with the command word `w` accepted (R120) and the engine next to move, so that the very next step
completes exactly it. The core has no program counter: the word it executes is PENDING (R23, R38). With no
event on its way the engine is next already; otherwise its completion step is put first. -/
def State.withFetchWord (s : State) (nbits w : Nat) : State :=
  { accept (BitVec.ofNat 32 (w % 2 ^ nbits)) s with
    events := match s.events with
      | [] => []
      | es => .complete :: es }

end Sys2Proof.Machine
end

