-- ==== Sys2Proof/Machine/Assembler.lean ====
section
/-! DEFINITION. The spec's assembler syntax (R98) and its pseudo-commands (R99). The machine does not use
it. -/

namespace Sys2Proof

/-- `x0` to `x7` (R98). -/
def regText (r : Reg) : String := "x" ++ toString r.val

/-- A mnemonic and its register operands, separated by commas (R98). -/
def asmLine (mnemonic : String) (rs : List Reg) : String :=
  match rs with
  | [] => mnemonic
  | _ => mnemonic ++ " " ++ String.intercalate ", " (rs.map regText)

/-- The assembler line of a command (R98): its used fields in field order. -/
def Instr.asm : Instr → String
  | .nop => asmLine "NOP" []
  | .modmul rd a b n => asmLine "MODMUL" [rd, a, b, n]
  | .montmul rd a b n => asmLine "MONTMUL" [rd, a, b, n]
  | .modexp rd b x m => asmLine "MODEXP" [rd, b, x, m]
  | .crtRecombine rd mp mq p q qi => asmLine "CRT_RECOMBINE" [rd, mp, mq, p, q, qi]
  | .mrRound rd n a => asmLine "MR_ROUND" [rd, n, a]
  | .mrTest rd n => asmLine "MR_TEST" [rd, n]
  | .primegen rd => asmLine "PRIMEGEN" [rd]
  | .keyderive p q => asmLine "KEYDERIVE" [p, q]
  | .keygen => asmLine "KEYGEN" []
  | .encBlock rd m => asmLine "ENC_BLOCK" [rd, m]
  | .decBlock rd c => asmLine "DEC_BLOCK" [rd, c]

/-- `MODSQR xd, xa, xn` (R99). -/
def Instr.modsqr (rd a n : Reg) : Instr := .modmul rd a a n

/-- `MONTSQR xd, xa, xn` (R99). -/
def Instr.montsqr (rd a n : Reg) : Instr := .montmul rd a a n

/-- `CLRSTAT` (R99). -/
def Instr.clrstat : Instr := .nop

end Sys2Proof
end

