-- ==== Sys2Proof/Safety.lean ====
section
/-! DEFINITION. What the rules promise of every reachable state of the machine (10_state.md, R149, R151,
R241), and what a run inside the window is. -/

namespace Sys2Proof.Machine

/-- What an installed key satisfies (R147, R149, R151) on a core of width `w`. -/
structure KeyBank.Valid (w : Nat) (k : KeyBank) : Prop where
  p_ge : 3 ≤ k.p
  q_ge : 3 ≤ k.q
  n_eq : k.n = k.p * k.q
  n_lt : k.n < 2 ^ w
  phi_eq : k.phi = (k.p - 1) * (k.q - 1)
  e_ge : Config.eStart ≤ k.e
  e_lt : k.e < 2 ^ w
  e_coprime : Nat.gcd k.e k.phi = 1
  d_lt : k.d < k.phi
  d_inverse : k.d * k.e % k.phi = 1
  dp_eq : k.dp = k.d % (k.p - 1)
  dq_eq : k.dq = k.d % (k.q - 1)
  qinv_lt : k.qinv < k.q
  qinv_inverse : k.p * k.qinv % k.q = 1

/-- The invariant of the machine. -/
structure State.Inv (s : State) : Prop where
  /-- The parameters are in their ranges (R6). -/
  config_legal : s.cfg.legal = true
  /-- Every operand register is in [0, 2^W) (R21). -/
  reg_lt : ∀ r : Reg, s.reg r < 2 ^ s.cfg.width
  /-- Every key-bank register is in [0, 2^W) (R35). -/
  key_lt : ∀ k : KeyReg, s.key.get k < 2 ^ s.cfg.width
  /-- PENDING holds a word if and only if BUSY = 1 (R38). -/
  pending_busy : s.pending.isSome = s.busy
  /-- CTRL reads back the pending word (R31, R38). -/
  pending_ctrl : ∀ w, s.pending = some w → s.ctrl = w
  /-- DONE = 1 and BUSY = 1 never hold together (R26). -/
  done_not_busy : ¬ (s.done = true ∧ s.busy = true)
  /-- ERR = 1 implies DONE = 1 (R27). -/
  err_done : s.err = true → s.done = true
  /-- ERR = 1 exactly when ERRCODE is not 0 (R27, R30). -/
  err_code : s.err = true ↔ s.errcode ≠ 0
  /-- ERRCODE is one of the codes of R241. -/
  code_legal : s.errcode.toNat ≤ 11
  /-- The key bank is 0 until a key is installed (R35, R36). -/
  key_empty : s.keyValid = false → s.key = KeyBank.zero
  /-- An installed key is valid (R151). -/
  key_valid : s.keyValid = true → s.key.Valid s.cfg.width

/-- The bus address of an access. -/
def Access.addr : Access → Nat
  | .read _ a => a
  | .write _ a _ => a

/-- An event the core has an answer to: no access to an address outside its window (R60, U10). -/
def Event.inWindow (c : Config) : Event → Bool
  | .access a => (windowOffset c a.addr).isSome
  | .complete => true
  | .reset => true

/-- Every input on its way is one the core answers. Such a machine never stops. -/
def State.answerable (s : State) : Bool := s.cfg.legal && s.events.all (Event.inWindow s.cfg)

end Sys2Proof.Machine
end

