-- ==== Sys2Proof/Certificates/Slice0/Obligations.lean ====
section
/-! DEFINITION. The statements for the provers. The helpers of namespace Claims say in the spec's own terms
what the statements are about; they use none of the model's lifecycle operations. -/

namespace Sys2Proof.Claims

open Sys2Proof.Machine

/-- The state after the acceptance of `w` (R120), field by field. -/
def accepted (w : Word) (s : State) : State :=
  { s with ctrl := w, pending := some w, busy := true, done := false, err := false, errcode := 0, wign := false }

/-- The state after a command ended without an error (R122). -/
def succeeds (s : State) : State := { s with busy := false, done := true, pending := none }

/-- The state after a command ended with the error of that number (R122, R241). -/
def failsWith (code : Nat) (s : State) : State :=
  { s with busy := false, done := true, pending := none, err := true, errcode := BitVec.ofNat 8 code }

/-- `X[rd] <- v`, nothing else. -/
def writes (s : State) (rd : Reg) (v : Nat) : State := { s with x := s.x.set rd v }

/-- The random words up to `pos` are taken, nothing else. -/
def takes (s : State) (pos : Nat) : State := { s with rngPos := pos }

/-- The register index in bits `k + 2` to `k` of a command word (R91). -/
def field (w : Word) (k : Nat) : Reg := Fin.ofNat 8 (w.toNat / 2 ^ k)

/-- The words of opcode `op`: those of its row of R95 decode to the row's command, every other one
completes with E_BADCMD (5) and no other effect (R94, R126). -/
def EncodedAs (op : Nat) (mask mtch : Word) (i : Word → Instr) : Prop :=
  ∀ w : Word, w.toNat % 64 = op →
    (w &&& mask = mtch → decode w = .ok (i w))
    ∧ (w &&& mask ≠ mtch → ∀ s, completeWord w s = .next (failsWith 5 s))

/-- The value of `k` random words from position `pos` on, the first most significant (R11). -/
def wordsValue (stream : Nat → Word) (pos k : Nat) : Nat :=
  ∑ j ∈ Finset.range k, (stream (pos + j)).toNat * 2 ^ (32 * (k - 1 - j))

/-- `n` is a strong probable prime to base `a` (R140): n - 1 = 2^s * t with t odd, and a^t is 1 modulo n or
one of a^t, a^(2t), ..., a^(2^(s-1) t) is n - 1 modulo n. -/
def StrongProbablePrime (n a : Nat) : Prop :=
  ∃ s t, n - 1 = 2 ^ s * t ∧ t % 2 = 1 ∧ (a ^ t % n = 1 ∨ ∃ j < s, a ^ (2 ^ j * t) % n = n - 1)

/-- The words of one base for `n` (R142). -/
def baseCount (n : Nat) : Nat := (bitlen n + 31) / 32 + 1

/-- Base number `i` of MR_TEST's rounds from position `pos` on (R142, R143). -/
def baseAt (stream : Nat → Word) (n pos i : Nat) : Nat :=
  2 + wordsValue stream (pos + i * baseCount n) (baseCount n) % (n - 3)

/-- The candidate of `l` bits drawn at `pos` (R144): the low `l` bits of the words, with bits `l - 1` and 0
set. -/
def candidateAt (stream : Nat → Word) (l pos : Nat) : Nat :=
  wordsValue stream pos ((l + 31) / 32) % 2 ^ l ||| 2 ^ (l - 1) ||| 1

/-- Where trial number `t` of a prime search that starts at `pos` draws its candidate (R145). -/
def trialPos (stream : Nat → Word) (l pos : Nat) : Nat → Nat
  | 0 => pos
  | t + 1 =>
    (mrTest stream (candidateAt stream l (trialPos stream l pos t)) (trialPos stream l pos t + (l + 31) / 32)).2

/-- Trial number `t` of that search passes. -/
def trialPasses (stream : Nat → Word) (l pos t : Nat) : Prop :=
  (mrTest stream (candidateAt stream l (trialPos stream l pos t)) (trialPos stream l pos t + (l + 31) / 32)).1 = true

/-- The first passing trial of a search of at most `k` trials is number `t` (R145). -/
def firstPass (stream : Nat → Word) (l pos k t : Nat) : Prop :=
  t < k ∧ trialPasses stream l pos t ∧ ∀ u < t, ¬ trialPasses stream l pos u

/-- `e` is the least exponent of [65537, limit) coprime to `phi` (R146). -/
def LeastExponent (phi limit e : Nat) : Prop :=
  65537 ≤ e ∧ e < limit ∧ Nat.gcd e phi = 1 ∧ ∀ u, 65537 ≤ u → u < e → Nat.gcd u phi ≠ 1

/-- The key that R147 derives from `p`, `q` with the exponent `e` and the inverses `d`, `qinv`. -/
def keyOf (p q e d qinv : Nat) : KeyBank :=
  { p := p, q := q, n := p * q, phi := (p - 1) * (q - 1), e := e, d := d,
    dp := d % (p - 1), dq := d % (q - 1), qinv := qinv }

/-- What `derive` and `install` do to `s` (R147, R149): E_KEYGEN (2), or the key in all nine registers. -/
def DerivesTo (p q : Nat) (s : State) (r : Result) : Prop :=
  (p < 3 ∨ q < 3 ∨ 2 ^ s.cfg.width ≤ p * q
      ∨ (∀ u, 65537 ≤ u → u < s.cfg.eLimit → Nat.gcd u ((p - 1) * (q - 1)) ≠ 1)
      ∨ Nat.gcd p q ≠ 1 → r = .next (failsWith 2 s))
  ∧ (3 ≤ p → 3 ≤ q → p * q < 2 ^ s.cfg.width →
      (∃ u, 65537 ≤ u ∧ u < s.cfg.eLimit ∧ Nat.gcd u ((p - 1) * (q - 1)) = 1) → Nat.gcd p q = 1 →
      ∃ e d qinv, LeastExponent ((p - 1) * (q - 1)) s.cfg.eLimit e
        ∧ d < (p - 1) * (q - 1) ∧ e * d % ((p - 1) * (q - 1)) = 1
        ∧ qinv < q ∧ p * qinv % q = 1
        ∧ r = .next (succeeds { s with key := keyOf p q e d qinv, keyValid := true }))

/-- The recombination of R220 on integers: h = (((mq - mp) mod q) * qinv) mod q, m = mp + p * h. -/
def garner (mp mq p q qinv : Nat) : Int :=
  (mp : Int) + p * (((mq : Int) - mp) % q * qinv % q)

/-- The destination of a command that writes an operand register. -/
def destination : Instr → Option Reg
  | .modmul rd _ _ _ => some rd
  | .montmul rd _ _ _ => some rd
  | .modexp rd _ _ _ => some rd
  | .crtRecombine rd _ _ _ _ _ => some rd
  | .mrRound rd _ _ => some rd
  | .mrTest rd _ => some rd
  | .primegen rd => some rd
  | .encBlock rd _ => some rd
  | .decBlock rd _ => some rd
  | .nop => none
  | .keyderive _ _ => none
  | .keygen => none

/-- The operand registers the source fields of a command name (R121). -/
def sources : Instr → List Reg
  | .nop => []
  | .modmul _ a b n => [a, b, n]
  | .montmul _ a b n => [a, b, n]
  | .modexp _ b x m => [b, x, m]
  | .crtRecombine _ mp mq p q qi => [mp, mq, p, q, qi]
  | .mrRound _ n a => [n, a]
  | .mrTest _ n => [n]
  | .primegen _ => []
  | .keyderive p q => [p, q]
  | .keygen => []
  | .encBlock _ m => [m]
  | .decBlock _ c => [c]

/-- MR_TEST, PRIMEGEN and KEYGEN: the commands that call rng_word (R39). -/
def usesRandom : Instr → Bool
  | .mrTest _ _ => true
  | .primegen _ => true
  | .keygen => true
  | _ => false

/-- KEYDERIVE and KEYGEN: the commands that can install a key (R36). -/
def installsKey : Instr → Bool
  | .keyderive _ _ => true
  | .keygen => true
  | _ => false

/-- The next event is that access. -/
def nextAccess (s : State) (a : Access) (rest : List Event) : Prop := s.events = .access a :: rest

end Sys2Proof.Claims

open Sys2Proof Sys2Proof.Machine Sys2Proof.Claims

/-! ## Encoding -/

/-- R100: the words of the encoding examples. -/
def Obligations.ExampleWordsDecodeAsPrinted : Prop :=
  decode 0x000110C3 = .ok (.modexp 3 0 1 2)
  ∧ decode 0x000110C1 = .ok (.modmul 3 0 1 2)
  ∧ decode 0x00011102 = .ok (.montmul 4 0 1 2)
  ∧ decode 0x008D1144 = .ok (.crtRecombine 5 0 1 2 3 4)
  ∧ decode 0x00001085 = .ok (.mrRound 2 0 1)
  ∧ decode 0x00000046 = .ok (.mrTest 1 0)
  ∧ decode 0x00000007 = .ok (.primegen 0)
  ∧ decode 0x00001008 = .ok (.keyderive 0 1)
  ∧ decode 0x00000009 = .ok .keygen
  ∧ decode 0x0000004A = .ok (.encBlock 1 0)
  ∧ decode 0x0000028B = .ok (.decBlock 2 1)
  ∧ decode 0x0003FFC3 = .ok (.modexp 7 7 7 7)
  ∧ decode 0x00000000 = .ok .nop
  ∧ ∀ w ∈ [0x01000003#32, 0x000400C3#32, 0x0000000C#32, 0xFFFFFFFF#32],
      ∀ s, completeWord w s = .next (failsWith 5 s)

/-- 30_encoding.md: no bit of an encoding is dropped. -/
def Obligations.DecodeOfEncodeIsTheInstruction : Prop :=
  ∀ i : Instr, i.wellFormed = true → decode (encode i) = .ok i

/-- 30_encoding.md: a command has one word only. -/
def Obligations.DecodedWordIsTheEncodingOfItsInstruction : Prop :=
  ∀ (w : Word) (i : Instr), decode w = .ok i → encode i = w

/-- 30_encoding.md: the match and mask of R95 accept exactly the words whose fields R94 to R96 allow. -/
def Obligations.DecodeAcceptsExactlyTheWellFormedFields : Prop :=
  ∀ w : Word,
    ((∃ i, decode w = .ok i) ↔ (Fields.ofWord w).wellFormed = true)
    ∧ (decode w = .error .reservedOpcode ↔ 0x0C ≤ w.toNat % 64)
    ∧ (decode w = .error .malformed ↔ w.toNat % 64 < 0x0C ∧ (Fields.ofWord w).wellFormed = false)

/-- R96: a reserved OP is accepted and completes with E_BADCMD (5) and no other effect, and every word is
either one row of R95 or completes so. -/
def Obligations.ReservedOpcodeCompletesWithBadCommand : Prop :=
  (∀ (s : State) (w : Word) (rest : List Event), s.cfg.legal = true → s.busy = false → 0x0C ≤ w.toNat % 64 →
    nextAccess s (.write 32 (s.cfg.base + 0x008) w) (.complete :: rest) →
    ∃ t, step s = .next t ∧ t = accepted w { s with events := .complete :: rest, reply := some .written }
      ∧ step t = .next (failsWith 5 { t with events := rest }))
  ∧ ∀ w : Word, (∃ i, decode w = .ok i ∧ encode i = w) ∨ ∀ s, completeWord w s = .next (failsWith 5 s)

/-- R98, R99: the spelling of the commands of R100, and the three pseudo-commands. -/
def Obligations.AssemblerSpellsCommandsAndPseudoCommands : Prop :=
  (∀ line ∈
    [ (Instr.modexp 3 0 1 2, "MODEXP x3, x0, x1, x2"),
      (.modmul 3 0 1 2, "MODMUL x3, x0, x1, x2"),
      (.montmul 4 0 1 2, "MONTMUL x4, x0, x1, x2"),
      (.crtRecombine 5 0 1 2 3 4, "CRT_RECOMBINE x5, x0, x1, x2, x3, x4"),
      (.mrRound 2 0 1, "MR_ROUND x2, x0, x1"),
      (.mrTest 1 0, "MR_TEST x1, x0"),
      (.primegen 0, "PRIMEGEN x0"),
      (.keyderive 0 1, "KEYDERIVE x0, x1"),
      (.keygen, "KEYGEN"),
      (.encBlock 1 0, "ENC_BLOCK x1, x0"),
      (.decBlock 2 1, "DEC_BLOCK x2, x1"),
      (.modexp 7 7 7 7, "MODEXP x7, x7, x7, x7"),
      (.nop, "NOP") ], line.1.asm = line.2)
  ∧ (∀ rd a n, Instr.modsqr rd a n = .modmul rd a a n)
  ∧ (∀ rd a n, Instr.montsqr rd a n = .montmul rd a a n)
  ∧ Instr.clrstat = .nop

/-! ## Reset and the invariant -/

/-- R41 and R271: the state after reset, and what becomes of a command that had not completed. The clause
`t.events = rest`, that a reset leaves what is on its way, is the model's choice (log entry 17). -/
def Obligations.ResetLeavesTheTabulatedState : Prop :=
  ∀ (s : State) (rest : List Event), s.cfg.legal = true → s.events = .reset :: rest →
    ∃ t, step s = .next t ∧ t.events = rest ∧ t.cfg = s.cfg
      ∧ (∀ r : Reg, t.reg r = 0)
      ∧ t.busy = false ∧ t.done = false ∧ t.err = false ∧ t.keyValid = false ∧ t.wign = false
      ∧ t.window .status = 0 ∧ t.errcode = 0 ∧ t.ctrl = 0
      ∧ t.configBitlen.toNat = min 1024 (s.cfg.width / 2)
      ∧ (∀ k : KeyReg, t.key.get k = 0)
      ∧ t.pending = none
      ∧ (s.busy = false → t.rngPos = s.rngPos)
      ∧ (s.busy = true → s.rngPos ≤ t.rngPos)
      ∧ t.window .id = 0x52534131
      ∧ (t.window .param).toNat = s.cfg.width / 32 + 50 * 2 ^ 16 + 8 * 2 ^ 24

/-- The invariant holds right after reset, for every legal configuration and for the default one. -/
def Obligations.ResetStateMeetsTheInvariant : Prop :=
  State.reset.Inv ∧ ∀ c : Config, c.legal = true → (State.powerOn c).Inv

/-- 10_state.md: every step keeps the invariant, whatever is on its way to the core. -/
def Obligations.StepKeepsTheInvariant : Prop :=
  ∀ s t : State, s.Inv → step s = .next t → t.Inv

/-- 93_implementation_defined.md: nothing is stuck. A core whose accesses are all in its window goes on. -/
def Obligations.AnswerableCoreNeverStops : Prop :=
  ∀ s : State, s.answerable = true → ∃ t, step s = .next t ∧ t.answerable = true

/-- R6, U6: a W outside its range is rejected. The spec gives E_LIMIT a range and does not say that a value
outside it is rejected: that a step refuses it too is the model's choice (log entry 1). -/
def Obligations.IllegalConfigurationIsRefused : Prop :=
  ∀ s : State,
    (s.cfg.width % 32 ≠ 0 ∨ s.cfg.width < 64 ∨ 8192 < s.cfg.width
      ∨ s.cfg.eLimit ≤ 65537 ∨ 2 ^ 64 < s.cfg.eLimit) →
    step s = .refused .illegalConfiguration

/-! ## Command lifecycle -/

/-- R120: acceptance, and the CTRL write of a busy core. -/
def Obligations.ControlWriteAcceptsEveryWord : Prop :=
  ∀ (s : State) (w : Word) (rest : List Event), s.cfg.legal = true →
    nextAccess s (.write 32 (s.cfg.base + 0x008) w) rest →
    (s.busy = false → step s = .next (accepted w { s with events := rest, reply := some .written }))
    ∧ (s.busy = true → step s = .next { s with events := rest, reply := some .written, wign := true })

/-- R122, R126: a step of a busy core whose turn it is runs the decoded command. With no event on its way
the turn is the engine's, the model's choice (log entry 4). -/
def Obligations.StepRunsTheDecodedInstruction : Prop :=
  ∀ (s : State) (w : Word) (i : Instr), s.cfg.legal = true → s.busy = true → s.pending = some w →
    decode w = .ok i →
    (s.events = [] → step s = exec i s)
    ∧ (∀ rest, s.events = .complete :: rest → step s = exec i { s with events := rest })

/-- withFetchWord puts a command where the very next step completes it. -/
def Obligations.FetchedWordRunsNext : Prop :=
  ∀ (s : State) (i : Instr), s.cfg.legal = true →
    step (s.withFetchWord 32 (encode i).toNat) = exec i (accepted (encode i) s)

/-- 60_exceptions.md R255: an idle core does nothing until the next event. -/
def Obligations.IdleCoreDoesNothing : Prop :=
  ∀ s : State, s.cfg.legal = true → s.busy = false →
    (s.events = [] → step s = .next s)
    ∧ (∀ rest, s.events = .complete :: rest → step s = .next { s with events := rest })

/-- 40_control.md R122: every command completes in every state, and what it leaves alone whatever it is. -/
def Obligations.EveryCommandCompletes : Prop :=
  ∀ (i : Instr) (s : State), ∃ t, exec i s = .next t
    ∧ t.busy = false ∧ t.done = true ∧ t.pending = none
    ∧ t.wign = s.wign ∧ t.ctrl = s.ctrl ∧ t.configBitlen = s.configBitlen ∧ t.cfg = s.cfg
    ∧ t.events = s.events ∧ t.reply = s.reply ∧ t.drawPos = s.drawPos
    ∧ s.rngPos ≤ t.rngPos

/-- R247: the state after an erroring command equals the state before its acceptance but for STATUS.BUSY,
DONE, ERR, WIGN, ERRCODE, CTRL and RNGPOS. -/
def Obligations.ErrorsArePrecise : Prop :=
  ∀ (s t : State) (w : Word), s.busy = false → s.pending = none →
    completeWord w (accepted w s) = .next t → t.err = true →
    t = { s with done := true, err := true, wign := false, errcode := t.errcode, ctrl := w, rngPos := t.rngPos }
    ∧ t.errcode ≠ 0

/-- R27, R30: ERR is set by a completion exactly when the command ended with an error, and ERRCODE is 0
otherwise. -/
def Obligations.SuccessLeavesNoErrorCode : Prop :=
  ∀ (s : State) (w : Word), ∃ t, completeWord w (accepted w s) = .next t
    ∧ (t.err = true ↔ t.errcode ≠ 0) ∧ (t.errcode.toNat ≤ 11) ∧ t.done = true ∧ t.busy = false

/-- 70_reset_and_hazards.md R280: an accepted command completes (or reset abandons it) in a bounded number
of steps, whatever accesses are on their way. That the engine has its turn when no event is left is the
model's choice (log entry 4). -/
def Obligations.AcceptedCommandCompletesInBoundedSteps : Prop :=
  ∀ s : State, s.answerable = true → s.busy = true → s.pending.isSome = true →
    ∃ k ≤ s.events.length + 1, ∃ t, Host.Core.run Sys2Proof.core k s = .next t ∧ t.busy = false

/-- R124: a command other than MR_TEST, PRIMEGEN and KEYGEN computes its outcome from its inputs alone; those
three from their inputs and the words they take, starting at RNGPOS. The inputs are those of R121, and the
parameters of R6. ERR and ERRCODE are clear, as acceptance leaves them. -/
def Obligations.OutcomeDependsOnInputsOnly : Prop :=
  ∀ (i : Instr) (s s' : State),
    s.cfg.width = s'.cfg.width → s.cfg.eLimit = s'.cfg.eLimit → s.cfg.trialBounds = s'.cfg.trialBounds →
    (∀ r ∈ sources i, s.reg r = s'.reg r) → s.key = s'.key → s.keyValid = s'.keyValid →
    s.configBitlen = s'.configBitlen →
    s.err = false → s'.err = false → s.errcode = 0 → s'.errcode = 0 →
    (usesRandom i = true → ∀ t, exec i s = .next t → ∀ n, s.rngPos + n < t.rngPos →
      s.cfg.stream (s.rngPos + n) = s'.cfg.stream (s'.rngPos + n)) →
    ∃ t t' taken, exec i s = .next t ∧ exec i s' = .next t'
      ∧ t.err = t'.err ∧ t.errcode = t'.errcode ∧ t.key = t'.key ∧ t.keyValid = t'.keyValid
      ∧ (t.err = false → ∀ rd, destination i = some rd → t.reg rd = t'.reg rd)
      ∧ t.rngPos = s.rngPos + taken ∧ t'.rngPos = s'.rngPos + taken
      ∧ (usesRandom i = false → taken = 0)

/-! ## The register window -/

/-- R24, R30 to R34: what a read of each control register answers, busy or idle, with nothing changed. -/
def Obligations.ControlRegisterReads : Prop :=
  ∀ (s : State) (off : Nat) (rest : List Event), s.cfg.legal = true →
    nextAccess s (.read 32 (s.cfg.base + off)) rest →
    ∀ value, (off, value) ∈
      [ (0x000, 0x52534131),
        (0x004, s.cfg.width / 32 + 50 * 2 ^ 16 + 8 * 2 ^ 24),
        (0x008, s.ctrl.toNat),
        (0x00C, s.busy.toNat + 2 * s.done.toNat + 4 * s.err.toNat + 8 * s.keyValid.toNat + 16 * s.wign.toNat),
        (0x010, s.errcode.toNat),
        (0x014, s.configBitlen.toNat) ] →
      ∃ v : Word, v.toNat = value ∧ step s = .next { s with events := rest, reply := some (.data v) }

/-- R61: the words of an operand slot and of a key slot while the core is idle. -/
def Obligations.SlotWordsOfAnIdleCore : Prop :=
  ∀ (s : State) (rest : List Event) (j : Nat), s.cfg.legal = true → s.busy = false → j < 256 →
    (∀ r : Reg, j < s.cfg.width / 32 →
      nextAccess s (.read 32 (s.cfg.base + 0x1000 + 0x400 * r.val + 4 * j)) rest →
      ∃ v : Word, v.toNat = s.reg r / 2 ^ (s.cfg.width - 32 - 32 * j) % 2 ^ 32
        ∧ step s = .next { s with events := rest, reply := some (.data v) })
    ∧ (∀ k : KeyReg, j < s.cfg.width / 32 →
      nextAccess s (.read 32 (s.cfg.base + 0x3000 + 0x400 * k.index + 4 * j)) rest →
      ∃ v : Word, v.toNat = s.key.get k / 2 ^ (s.cfg.width - 32 - 32 * j) % 2 ^ 32
        ∧ step s = .next { s with events := rest, reply := some (.data v) })
    ∧ (∀ (r : Reg) (u : Word), j < s.cfg.width / 32 →
      nextAccess s (.write 32 (s.cfg.base + 0x1000 + 0x400 * r.val + 4 * j) u) rest →
      step s = .next (writes { s with events := rest, reply := some .written } r
        (s.reg r - s.reg r / 2 ^ (s.cfg.width - 32 - 32 * j) % 2 ^ 32 * 2 ^ (s.cfg.width - 32 - 32 * j)
          + u.toNat * 2 ^ (s.cfg.width - 32 - 32 * j))))
    ∧ (s.cfg.width / 32 ≤ j → ∀ n < 17,
      nextAccess s (.read 32 (s.cfg.base + 0x1000 + 0x400 * n + 4 * j)) rest →
      step s = .next { s with events := rest, reply := some (.busError .busErrorUnmapped) })

/-- 20_memory.md R61: after a word of an operand register is written it reads as written, and every other
location of the window reads as before. -/
def Obligations.WrittenWordReadsBackAlone : Prop :=
  ∀ (s t : State) (r : Reg) (j : Nat) (u : Word) (rest : List Event), s.cfg.legal = true → s.busy = false →
    j < s.cfg.width / 32 →
    nextAccess s (.write 32 (s.cfg.base + 0x1000 + 0x400 * r.val + 4 * j) u) rest →
    step s = .next t →
    t.window (.operand r j) = u
    ∧ (∀ q i, i < s.cfg.width / 32 → (q, i) ≠ (r, j) → t.window (.operand q i) = s.window (.operand q i))
    ∧ (∀ k i, t.window (.keyWord k i) = s.window (.keyWord k i))
    ∧ (∀ l : Loc, l.isData = false → t.window l = s.window l)

/-- 20_memory.md R61, R70: a register is its WW words, word 0 the most significant. -/
def Obligations.RegisterIsTheSumOfItsWords : Prop :=
  ∀ (s : State) (r : Reg), s.Inv →
    ∑ j ∈ Finset.range (s.cfg.width / 32),
      (s.window (.operand r j)).toNat * 2 ^ (s.cfg.width - 32 - 32 * j) = s.reg r

/-- R69: a write to a writable location. -/
def Obligations.WritableLocationWrites : Prop :=
  ∀ (s : State) (v : Word) (rest : List Event) (off : Nat), s.cfg.legal = true →
    nextAccess s (.write 32 (s.cfg.base + off) v) rest →
    (off = 0x008 ∨ off = 0x014 ∨ (∃ (r : Reg) (j : Nat), j < s.cfg.width / 32 ∧ off = 0x1000 + 0x400 * r.val + 4 * j)) →
    if s.busy = true then step s = .next { s with events := rest, reply := some .written, wign := true }
    else
      (off = 0x008 → step s = .next (accepted v { s with events := rest, reply := some .written }))
      ∧ (off = 0x014 → ∃ b : BitVec 16, b.toNat = v.toNat % 2 ^ 16
          ∧ step s = .next { s with events := rest, reply := some .written, configBitlen := b })
      ∧ (∀ (r : Reg) (j : Nat), j < s.cfg.width / 32 → off = 0x1000 + 0x400 * r.val + 4 * j →
          step s = .next (writes { s with events := rest, reply := some .written } r
            (s.reg r - s.reg r / 2 ^ (s.cfg.width - 32 - 32 * j) % 2 ^ 32 * 2 ^ (s.cfg.width - 32 - 32 * j)
              + v.toNat * 2 ^ (s.cfg.width - 32 - 32 * j))))

/-- R68: a write to a read-only location is ignored, busy or idle. -/
def Obligations.ReadOnlyLocationWritesAreIgnored : Prop :=
  ∀ (s : State) (v : Word) (rest : List Event) (off : Nat), s.cfg.legal = true →
    nextAccess s (.write 32 (s.cfg.base + off) v) rest →
    (off = 0x000 ∨ off = 0x004 ∨ off = 0x00C ∨ off = 0x010
      ∨ (∃ (k : KeyReg) (j : Nat), j < s.cfg.width / 32 ∧ off = 0x3000 + 0x400 * k.index + 4 * j)) →
    step s = .next { s with events := rest, reply := some .written }

/-- R63 to R66: an access of the window is answered with a bus error exactly when its width is not 32, its
offset is no multiple of 4 or is unmapped; a bus error changes nothing of the core, busy or idle. -/
def Obligations.BusErrorsChangeNothing : Prop :=
  ∀ (s : State) (a : Access) (bits off : Nat) (rest : List Event), s.cfg.legal = true → off < 0x5400 →
    (a = .read bits (s.cfg.base + off) ∨ ∃ v, a = .write bits (s.cfg.base + off) v) →
    nextAccess s a rest →
    ((bits ≠ 32 ∨ off % 4 ≠ 0 ∨ (0x018 ≤ off ∧ off < 0x1000)
        ∨ (0x1000 ≤ off ∧ s.cfg.width / 32 ≤ off % 0x400 / 4)) →
      ∃ f, step s = .next { s with events := rest, reply := some (.busError f) })
    ∧ (bits = 32 → off % 4 = 0 → (off < 0x018 ∨ (0x1000 ≤ off ∧ off % 0x400 / 4 < s.cfg.width / 32)) →
      ∃ t, step s = .next t ∧ ∀ f, t.reply ≠ some (.busError f))

/-- R60, U10: an address outside the window is not the core's. -/
def Obligations.AddressOutsideTheWindowIsRefused : Prop :=
  ∀ (s : State) (a : Access) (rest : List Event), s.cfg.legal = true → nextAccess s a rest →
    (a.addr < s.cfg.base ∨ s.cfg.base + 0x5400 ≤ a.addr) → step s = .refused .outsideWindow

/-- R22, R37: an operand or key-bank word read while BUSY = 1 answers some word and changes nothing of the
core. The word is the free value `Config.busyReadValue`, and the counter of draws is the model's own. -/
def Obligations.BusyDataReadsAnswerAFreeValue : Prop :=
  ∀ (s : State) (j : Nat) (rest : List Event) (off : Nat), s.cfg.legal = true → s.busy = true →
    j < s.cfg.width / 32 →
    ((∃ r : Reg, off = 0x1000 + 0x400 * r.val + 4 * j) ∨ (∃ k : KeyReg, off = 0x3000 + 0x400 * k.index + 4 * j)) →
    nextAccess s (.read 32 (s.cfg.base + off)) rest →
    step s = .next { s with
      events := rest, drawPos := s.drawPos + 1, reply := some (.data (Config.busyReadValue s.drawPos)) }

/-- 10_state.md R36, R39, 20_memory.md R67: no host access moves the key bank, KEY_VALID, RNGPOS or a
parameter, and a read changes nothing but its answer and the model's counter of draws. -/
def Obligations.HostAccessNeverTouchesKeyOrStream : Prop :=
  ∀ (s t : State) (a : Access) (rest : List Event), nextAccess s a rest → step s = .next t →
    t.key = s.key ∧ t.keyValid = s.keyValid ∧ t.rngPos = s.rngPos ∧ t.cfg = s.cfg
    ∧ (∀ bits addr, a = .read bits addr →
        t = { s with events := rest, reply := t.reply, drawPos := t.drawPos })

/-! ## Commands -/

/-- R127. -/
def Obligations.NopOnlyClearsTheStatus : Prop :=
  EncodedAs 0x00 0xFFFFFFFF 0x00000000 (fun _ => .nop)
  ∧ ∀ s : State, exec .nop s = .next (succeeds s)
    ∧ exec .nop (accepted 0 s) = .next { s with
        ctrl := 0, pending := none, busy := false, done := true, err := false, errcode := 0, wign := false }

/-- R183. -/
def Obligations.ModmulGivesTheModularProduct : Prop :=
  EncodedAs 0x01 0xFFFC003F 0x00000001 (fun w => .modmul (field w 6) (field w 9) (field w 12) (field w 15))
  ∧ ∀ (s : State) (rd a b n : Reg),
    (s.reg n < 2 → exec (.modmul rd a b n) s = .next (failsWith 6 s))
    ∧ (2 ≤ s.reg n → exec (.modmul rd a b n) s = .next (succeeds (writes s rd (s.reg a * s.reg b % s.reg n))))

/-- R180, R181: 2^(32 k) is the least power of 2^32 above N, and v its inverse modulo N. -/
def Obligations.MontmulGivesTheMontgomeryProduct : Prop :=
  EncodedAs 0x02 0xFFFC003F 0x00000002 (fun w => .montmul (field w 6) (field w 9) (field w 12) (field w 15))
  ∧ ∀ (s : State) (rd a b n : Reg),
    ((s.reg n < 2 ∨ s.reg n % 2 = 0) → exec (.montmul rd a b n) s = .next (failsWith 6 s))
    ∧ (2 ≤ s.reg n → s.reg n % 2 = 1 → (s.reg n ≤ s.reg a ∨ s.reg n ≤ s.reg b) →
        exec (.montmul rd a b n) s = .next (failsWith 7 s))
    ∧ (2 ≤ s.reg n → s.reg n % 2 = 1 → s.reg a < s.reg n → s.reg b < s.reg n →
        ∃ k v, s.reg n < 2 ^ (32 * k) ∧ (∀ j < k, 2 ^ (32 * j) ≤ s.reg n)
          ∧ v < s.reg n ∧ 2 ^ (32 * k) * v % s.reg n = 1
          ∧ exec (.montmul rd a b n) s = .next (succeeds (writes s rd (s.reg a * s.reg b * v % s.reg n))))

/-- R182: into the Montgomery domain, out of it, the product inside it, the Montgomery form of 1, and the
MODEXP that gives R^2 mod N. -/
def Obligations.MontmulDomainIdentities : Prop :=
  (∀ (s : State) (rd b x m : Reg), 2 ≤ s.reg m → s.reg b = 2 → s.reg x = 2 * montBits (s.reg m) →
    exec (.modexp rd b x m) s = .next (succeeds (writes s rd (montRadix (s.reg m) ^ 2 % s.reg m))))
  ∧ ∀ (s : State) (rd a b n : Reg), 2 ≤ s.reg n → s.reg n % 2 = 1 → s.reg a < s.reg n → s.reg b < s.reg n →
    ∃ v, exec (.montmul rd a b n) s = .next (succeeds (writes s rd v))
      ∧ (s.reg b = montRadix (s.reg n) ^ 2 % s.reg n → v = s.reg a * montRadix (s.reg n) % s.reg n)
      ∧ (s.reg b = 1 → ∀ x < s.reg n, s.reg a = x * montRadix (s.reg n) % s.reg n → v = x)
      ∧ (s.reg b = 1 → v * montRadix (s.reg n) % s.reg n = s.reg a)
      ∧ (∀ x y, s.reg a = x * montRadix (s.reg n) % s.reg n → s.reg b = y * montRadix (s.reg n) % s.reg n →
          v = x * y * montRadix (s.reg n) % s.reg n)
      ∧ (s.reg a = 1 → s.reg b = montRadix (s.reg n) ^ 2 % s.reg n → v = montRadix (s.reg n) % s.reg n)

/-- 42_modexp.md, the informative paragraph after R182: Montgomery's reduction computes MONTMUL's value. -/
def Obligations.RedcComputesTheMontgomeryProduct : Prop :=
  ∀ a b n : Nat, 1 < n → n % 2 = 1 → a < n → b < n → redc a b n = montmul a b n

/-- R184: left-to-right square-and-multiply gives the power. -/
def Obligations.ModexpGivesTheModularPower : Prop :=
  EncodedAs 0x03 0xFFFC003F 0x00000003 (fun w => .modexp (field w 6) (field w 9) (field w 12) (field w 15))
  ∧ ∀ (s : State) (rd b x m : Reg),
    (s.reg m < 2 → exec (.modexp rd b x m) s = .next (failsWith 6 s))
    ∧ (2 ≤ s.reg m → exec (.modexp rd b x m) s = .next (succeeds (writes s rd (s.reg b ^ s.reg x % s.reg m))))

/-- 42_modexp.md R185: how many squarings and multiplications the loop of modexp makes. -/
def Obligations.ModexpOperationCount : Prop :=
  ∀ b x m : Nat, modexpCounted (b % m) x m (bitlen x) (1, 0, 0) = (modexp b x m, bitlen x, popcount x)

/-- R220: the recombination on integers, E_MODULUS (6) and E_OVERFLOW (11). -/
def Obligations.CrtRecombineGivesTheGarnerValue : Prop :=
  EncodedAs 0x04 0xFF00003F 0x00000004 (fun w =>
      .crtRecombine (field w 6) (field w 9) (field w 12) (field w 15) (field w 18) (field w 21))
  ∧ ∀ (s : State) (rd mp mq p q qi : Reg),
    (s.reg q < 2 → exec (.crtRecombine rd mp mq p q qi) s = .next (failsWith 6 s))
    ∧ (2 ≤ s.reg q → ((2 ^ s.cfg.width : Nat) : Int) ≤ garner (s.reg mp) (s.reg mq) (s.reg p) (s.reg q) (s.reg qi) →
        exec (.crtRecombine rd mp mq p q qi) s = .next (failsWith 11 s))
    ∧ (2 ≤ s.reg q → garner (s.reg mp) (s.reg mq) (s.reg p) (s.reg q) (s.reg qi) < ((2 ^ s.cfg.width : Nat) : Int) →
        ∃ m : Nat, (m : Int) = garner (s.reg mp) (s.reg mq) (s.reg p) (s.reg q) (s.reg qi)
          ∧ exec (.crtRecombine rd mp mq p q qi) s = .next (succeeds (writes s rd m)))

/-- 44_crt.md R220, its corner case: on consistent operands the result is the one value below p * q with the
two residues, and it never overflows when p * q <= 2^W. -/
def Obligations.CrtRecombineFindsTheUniqueResidue : Prop :=
  ∀ (s : State) (rd mp mq p q qi : Reg), 2 ≤ s.reg q → s.reg mp < s.reg p → s.reg mq < s.reg q →
    s.reg p * s.reg qi % s.reg q = 1 → s.reg p * s.reg q ≤ 2 ^ s.cfg.width →
    ∃ m, exec (.crtRecombine rd mp mq p q qi) s = .next (succeeds (writes s rd m))
      ∧ m < s.reg p * s.reg q ∧ m % s.reg p = s.reg mp ∧ m % s.reg q = s.reg mq
      ∧ ∀ u, u < s.reg p * s.reg q → u % s.reg p = s.reg mp → u % s.reg q = s.reg mq → u = m

/-- R141: MR_ROUND tells whether n is a strong probable prime to base a. E_OPERAND is 7. -/
def Obligations.MrRoundTellsStrongProbablePrimes : Prop :=
  EncodedAs 0x05 0xFFFF803F 0x00000005 (fun w => .mrRound (field w 6) (field w 9) (field w 12))
  ∧ ∀ (s : State) (rd n a : Reg),
    ((s.reg n < 5 ∨ s.reg n % 2 = 0 ∨ s.reg a < 2 ∨ s.reg n - 2 < s.reg a) →
      exec (.mrRound rd n a) s = .next (failsWith 7 s))
    ∧ (5 ≤ s.reg n → s.reg n % 2 = 1 → 2 ≤ s.reg a → s.reg a ≤ s.reg n - 2 →
      (StrongProbablePrime (s.reg n) (s.reg a) → exec (.mrRound rd n a) s = .next (succeeds (writes s rd 1)))
      ∧ (¬ StrongProbablePrime (s.reg n) (s.reg a) → exec (.mrRound rd n a) s = .next (succeeds (writes s rd 0))))

/-- 41_keygen.md R140: a prime passes the round of every admitted base. -/
def Obligations.PrimesPassEveryMillerRabinRound : Prop :=
  ∀ (s : State) (rd n a : Reg), Nat.Prime (s.reg n) → 5 ≤ s.reg n → 2 ≤ s.reg a → s.reg a ≤ s.reg n - 2 →
    exec (.mrRound rd n a) s = .next (succeeds (writes s rd 1))

/-- R142, R143: the result of MR_TEST and the words it takes. -/
def Obligations.MrTestRunsItsRounds : Prop :=
  EncodedAs 0x06 0xFFFFF03F 0x00000006 (fun w => .mrTest (field w 6) (field w 9))
  ∧ ∀ (s : State) (rd n : Reg),
    ((s.reg n < 2 ∨ (4 ≤ s.reg n ∧ s.reg n % 2 = 0)) → exec (.mrTest rd n) s = .next (succeeds (writes s rd 0)))
    ∧ ((s.reg n = 2 ∨ s.reg n = 3) → exec (.mrTest rd n) s = .next (succeeds (writes s rd 1)))
    ∧ (5 ≤ s.reg n → s.reg n % 2 = 1 → ∀ i, 2 ≤ baseAt s.cfg.stream (s.reg n) s.rngPos i
        ∧ baseAt s.cfg.stream (s.reg n) s.rngPos i ≤ s.reg n - 2)
    ∧ (5 ≤ s.reg n → s.reg n % 2 = 1 →
        (∀ i < 50, mrRound (s.reg n) (baseAt s.cfg.stream (s.reg n) s.rngPos i) = true) →
        exec (.mrTest rd n) s
          = .next (succeeds (writes (takes s (s.rngPos + 50 * baseCount (s.reg n))) rd 1)))
    ∧ (5 ≤ s.reg n → s.reg n % 2 = 1 → ∀ i < 50,
        mrRound (s.reg n) (baseAt s.cfg.stream (s.reg n) s.rngPos i) = false →
        (∀ j < i, mrRound (s.reg n) (baseAt s.cfg.stream (s.reg n) s.rngPos j) = true) →
        exec (.mrTest rd n) s
          = .next (succeeds (writes (takes s (s.rngPos + (i + 1) * baseCount (s.reg n))) rd 0)))

/-- 41_keygen.md R143: a prime passes for every random stream, and takes 50 bases' words. -/
def Obligations.PrimesPassTheTestForEveryStream : Prop :=
  ∀ (s : State) (rd n : Reg), Nat.Prime (s.reg n) → 5 ≤ s.reg n →
    exec (.mrTest rd n) s
      = .next (succeeds (writes (takes s (s.rngPos + 50 * ((bitlen (s.reg n) + 31) / 32 + 1))) rd 1))

/-- R144: a candidate is the low L bits of its words with the top and the bottom bit set: odd, and of
exactly L bits. -/
def Obligations.CandidateHasTopAndBottomBitSet : Prop :=
  ∀ (stream : Nat → Word) (l pos : Nat), 8 ≤ l →
    candidateWords l = (l + 31) / 32
    ∧ drawCandidate stream l pos = candidateAt stream l pos
    ∧ 2 ^ (l - 1) ≤ drawCandidate stream l pos ∧ drawCandidate stream l pos < 2 ^ l
    ∧ drawCandidate stream l pos % 2 = 1

/-- R145: PRIMEGEN answers its first passing candidate, E_GENERATION (1) when MAX_TRIALS fail, E_CONFIG (10)
when BITLEN is illegal. MAX_TRIALS is 64 * L by default. -/
def Obligations.PrimegenAnswersTheFirstPassingCandidate : Prop :=
  EncodedAs 0x07 0xFFFFFE3F 0x00000007 (fun w => .primegen (field w 6))
  ∧ (∀ (c : Config) (l : Nat), c.trialBounds = [] → c.maxTrials l = 64 * l)
  ∧ ∀ (s : State) (rd : Reg),
    ((s.configBitlen.toNat < 8 ∨ s.cfg.width / 2 < s.configBitlen.toNat) →
      exec (.primegen rd) s = .next (failsWith 10 s))
    ∧ (8 ≤ s.configBitlen.toNat → s.configBitlen.toNat ≤ s.cfg.width / 2 →
      (∀ t, firstPass s.cfg.stream s.configBitlen.toNat s.rngPos (s.cfg.maxTrials s.configBitlen.toNat) t →
        ∃ c, c = candidateAt s.cfg.stream s.configBitlen.toNat (trialPos s.cfg.stream s.configBitlen.toNat s.rngPos t)
          ∧ 2 ^ (s.configBitlen.toNat - 1) < c ∧ c < 2 ^ s.configBitlen.toNat ∧ c % 2 = 1
          ∧ exec (.primegen rd) s = .next (succeeds (writes
              (takes s (trialPos s.cfg.stream s.configBitlen.toNat s.rngPos (t + 1))) rd c)))
      ∧ ((∀ t < s.cfg.maxTrials s.configBitlen.toNat,
            ¬ trialPasses s.cfg.stream s.configBitlen.toNat s.rngPos t) →
          exec (.primegen rd) s = .next (failsWith 1
            (takes s (trialPos s.cfg.stream s.configBitlen.toNat s.rngPos (s.cfg.maxTrials s.configBitlen.toNat))))))

/-- R146, R147: KEYDERIVE. E_KEYLOCKED is 9, E_KEYGEN 2. -/
def Obligations.KeyderiveInstallsTheDerivedKey : Prop :=
  EncodedAs 0x08 0xFFFF81FF 0x00000008 (fun w => .keyderive (field w 9) (field w 12))
  ∧ ∀ (s : State) (p q : Reg), s.cfg.legal = true →
    (s.keyValid = true → exec (.keyderive p q) s = .next (failsWith 9 s))
    ∧ (s.keyValid = false → DerivesTo (s.reg p) (s.reg q) s (exec (.keyderive p q) s))

/-- R148: KEYGEN draws p, then q from the words after it, and derives. E_GENERATION is 1, E_CONFIG 10,
E_KEYLOCKED 9. -/
def Obligations.KeygenDrawsTwoPrimesAndDerives : Prop :=
  EncodedAs 0x09 0xFFFFFFFF 0x00000009 (fun _ => .keygen)
  ∧ ∀ s : State, s.cfg.legal = true →
    (s.keyValid = true → exec .keygen s = .next (failsWith 9 s))
    ∧ (s.keyValid = false → (s.configBitlen.toNat < 8 ∨ s.cfg.width / 2 < s.configBitlen.toNat) →
        exec .keygen s = .next (failsWith 10 s))
    ∧ (s.keyValid = false → 8 ≤ s.configBitlen.toNat → s.configBitlen.toNat ≤ s.cfg.width / 2 →
        ∀ first second,
          first = primegen s.cfg s.configBitlen.toNat s.rngPos →
          second = primegen s.cfg s.configBitlen.toNat first.2 →
          (first.1 = none → exec .keygen s = .next (failsWith 1 (takes s first.2)))
          ∧ (first.1 ≠ none → second.1 = none → exec .keygen s = .next (failsWith 1 (takes s second.2)))
          ∧ (∀ p q, first.1 = some p → second.1 = some q →
              3 ≤ p ∧ 3 ≤ q ∧ p * q < 2 ^ s.cfg.width
              ∧ DerivesTo p q (takes s second.2) (exec .keygen s)))

/-- R210: ENC_BLOCK. E_NOKEY is 8, E_BLOCK_TOO_LARGE 3. In a state that meets the invariant an installed key
has a modulus above 1. -/
def Obligations.EncBlockGivesThePublicPower : Prop :=
  EncodedAs 0x0A 0xFFFFF03F 0x0000000A (fun w => .encBlock (field w 6) (field w 9))
  ∧ ∀ (s : State) (rd m : Reg), s.Inv →
    (s.keyValid = false → exec (.encBlock rd m) s = .next (failsWith 8 s))
    ∧ (s.keyValid = true → s.key.n ≤ s.reg m → exec (.encBlock rd m) s = .next (failsWith 3 s))
    ∧ (s.keyValid = true → s.reg m < s.key.n →
        exec (.encBlock rd m) s = .next (succeeds (writes s rd (s.reg m ^ s.key.e % s.key.n))))

/-- R221: DEC_BLOCK. E_NOKEY is 8, E_DECRYPTION 4. -/
def Obligations.DecBlockRecombinesThePrivatePowers : Prop :=
  EncodedAs 0x0B 0xFFFFF03F 0x0000000B (fun w => .decBlock (field w 6) (field w 9))
  ∧ ∀ (s : State) (rd c : Reg), s.Inv →
    (s.keyValid = false → exec (.decBlock rd c) s = .next (failsWith 8 s))
    ∧ (s.keyValid = true → s.key.n ≤ s.reg c → exec (.decBlock rd c) s = .next (failsWith 4 s))
    ∧ (s.keyValid = true → s.reg c < s.key.n →
        ∃ m : Nat, (m : Int) = garner (s.reg c ^ s.key.dp % s.key.p) (s.reg c ^ s.key.dq % s.key.q)
            s.key.p s.key.q s.key.qinv
          ∧ m < s.key.n
          ∧ exec (.decBlock rd c) s = .next (succeeds (writes s rd m)))

/-! ## Headline properties -/

/-- R222: the CRT equivalence for distinct primes, and the counterexample for a composite prime: KEYDERIVE
with p = 9, q = 7. -/
def Obligations.CrtDecryptionEqualsThePrivatePower : Prop :=
  (∀ (s : State) (rd c : Reg), s.Inv → s.keyValid = true →
    Nat.Prime s.key.p → Nat.Prime s.key.q → s.key.p ≠ s.key.q → s.reg c < s.key.n →
    exec (.decBlock rd c) s = .next (succeeds (writes s rd (s.reg c ^ s.key.d % s.key.n))))
  ∧ (∀ (s : State) (rd c p q : Reg), s.cfg.legal = true → s.keyValid = false →
    s.reg p = 9 → s.reg q = 7 → s.reg c = 3 →
    ∃ t, exec (.keyderive p q) s = .next t
      ∧ t = succeeds { s with key := ⟨9, 7, 63, 48, 65537, 17, 1, 5, 4⟩, keyValid := true }
      ∧ exec (.decBlock rd c) t = .next (succeeds (writes t rd 12)) ∧ 3 ^ 17 % 63 = 54)

/-- R212: with distinct primes, decryption gives back what was encrypted. -/
def Obligations.DecryptionInvertsEncryption : Prop :=
  ∀ (s : State) (rc rm m : Reg), s.Inv → s.keyValid = true →
    Nat.Prime s.key.p → Nat.Prime s.key.q → s.key.p ≠ s.key.q → s.reg m < s.key.n →
    ∃ t u, exec (.encBlock rc m) s = .next t ∧ t.reg rc < s.key.n
      ∧ exec (.decBlock rm rc) t = .next u ∧ u.reg rm = s.reg m

/-- R152: with the default E_LIMIT KEYDERIVE's search for the public exponent never fails, so it installs a
key from all p, q that pass the other checks. -/
def Obligations.DefaultExponentSearchNeverFails : Prop :=
  ∀ (s : State) (p q : Reg), s.cfg.legal = true → s.cfg.eLimit = 75537 → s.keyValid = false →
    3 ≤ s.reg p → 3 ≤ s.reg q → s.reg p * s.reg q < 2 ^ s.cfg.width → Nat.gcd (s.reg p) (s.reg q) = 1 →
    ∃ k, exec (.keyderive p q) s = .next (succeeds { s with key := k, keyValid := true })
      ∧ k.Valid s.cfg.width

/-- R36: only a successful KEYDERIVE or KEYGEN writes the key bank, while KEY_VALID = 0, and reset clears
it. -/
def Obligations.KeyBankChangesOnlyByInstallationOrReset : Prop :=
  ∀ s t : State, step s = .next t → (t.key ≠ s.key ∨ t.keyValid ≠ s.keyValid) →
    (∃ rest, s.events = .reset :: rest)
    ∨ (s.keyValid = false ∧ t.keyValid = true ∧ s.busy = true ∧ t.busy = false ∧ t.err = s.err
        ∧ ∃ w i, s.pending = some w ∧ decode w = .ok i ∧ installsKey i = true)

/-- 10_state.md R39: RNGPOS never falls, and only the completion of an MR_TEST, PRIMEGEN or KEYGEN and the
reset of a busy core move it. A completion is the step that, without a reset, takes BUSY from 1 to 0. -/
def Obligations.OnlyRandomCommandsMoveTheStream : Prop :=
  ∀ s t : State, step s = .next t →
    s.rngPos ≤ t.rngPos
    ∧ (t.rngPos ≠ s.rngPos → s.busy = true ∧ t.busy = false
        ∧ ((∃ rest, s.events = .reset :: rest)
          ∨ ∃ w i, s.pending = some w ∧ decode w = .ok i ∧ usesRandom i = true))

/-! ## Frames -/

/-- The frame of the commands that write an operand register (MODMUL, MONTMUL, MODEXP, CRT_RECOMBINE,
MR_ROUND, MR_TEST, PRIMEGEN, ENC_BLOCK, DEC_BLOCK). -/
def Obligations.RegisterCommandsChangeOnlyTheirDestination : Prop :=
  ∀ (i : Instr) (rd : Reg) (s t : State), destination i = some rd → exec i s = .next t →
    (∀ r : Reg, r ≠ rd → t.reg r = s.reg r)
    ∧ t.key = s.key ∧ t.keyValid = s.keyValid ∧ t.wign = s.wign ∧ t.ctrl = s.ctrl
    ∧ t.configBitlen = s.configBitlen ∧ t.cfg = s.cfg
    ∧ (usesRandom i = false → t.rngPos = s.rngPos)
    ∧ ((t.err = s.err ∧ t.errcode = s.errcode) ∨ (t.err = true ∧ t.errcode ≠ 0 ∧ t.x = s.x))
    ∧ (∀ l : Loc, l ≠ .status → l ≠ .errcode → (∀ j, l ≠ .operand rd j) → t.window l = s.window l)

/-- The frame of NOP, KEYDERIVE and KEYGEN: no operand register is written. -/
def Obligations.OtherCommandsWriteNoOperandRegister : Prop :=
  ∀ (i : Instr) (s t : State), destination i = none → exec i s = .next t →
    t.x = s.x ∧ t.wign = s.wign ∧ t.ctrl = s.ctrl ∧ t.configBitlen = s.configBitlen ∧ t.cfg = s.cfg
    ∧ (usesRandom i = false → t.rngPos = s.rngPos)
    ∧ (installsKey i = false → t.key = s.key ∧ t.keyValid = s.keyValid)
    ∧ ((t.err = s.err ∧ t.errcode = s.errcode)
        ∨ (t.err = true ∧ t.errcode ≠ 0 ∧ t.key = s.key ∧ t.keyValid = s.keyValid))
    ∧ (∀ l : Loc, l ≠ .status → l ≠ .errcode → (∀ k j, l ≠ .keyWord k j) → t.window l = s.window l)
end

