-- ==== Sys2Proof/Laws/Arith.lean ====
section
/-! SUPPORT. What the arithmetic of the commands computes, each function once. -/

namespace Sys2Proof.Machine

theorem bitlen_zero : bitlen 0 = 0 := rfl

theorem lt_two_pow_bitlen (x : Nat) : x < 2 ^ bitlen x := by
  unfold bitlen; split
  · simp [*]
  · exact Nat.lt_log2_self

theorem two_pow_le_of_bitlen {x : Nat} (h : x ≠ 0) : 2 ^ (bitlen x - 1) ≤ x := by
  simpa [bitlen, h] using Nat.log2_self_le h

theorem bitlen_le_iff (x k : Nat) : bitlen x ≤ k ↔ x < 2 ^ k := by
  constructor
  · exact fun h => (lt_two_pow_bitlen x).trans_le (Nat.pow_le_pow_right (by omega) h)
  · intro h
    by_cases hx : x = 0
    · simp [bitlen, hx]
    · by_contra hk
      have : 2 ^ k ≤ 2 ^ (bitlen x - 1) := Nat.pow_le_pow_right (by omega) (by omega)
      exact absurd (two_pow_le_of_bitlen hx) (by omega)

theorem bit_lt_two (x i : Nat) : bit x i < 2 := Nat.mod_lt _ (by omega)

theorem mod_two_pow_succ (x i : Nat) : x % 2 ^ (i + 1) = bit x i * 2 ^ i + x % 2 ^ i := by
  rw [pow_succ, Nat.mod_mul, bit]; ring

/-- One turn of the loop of R184 -/
theorem modexpLoop_eq (b x m : Nat) : ∀ i r, 0 < i → modexpLoop b x m i r = r ^ 2 ^ i * b ^ (x % 2 ^ i) % m := by
  intro i
  induction i with
  | zero => intro r h; omega
  | succ i ih =>
    intro r _
    have key : ∀ y, y % m = r * r * b ^ bit x i % m → modexpLoop b x m i (y % m) = r ^ 2 ^ (i + 1) * b ^ (x % 2 ^ (i + 1)) % m := by
      intro y hy
      have h2 : r ^ 2 ^ (i + 1) * b ^ (x % 2 ^ (i + 1)) = (r * r * b ^ bit x i) ^ 2 ^ i * b ^ (x % 2 ^ i) := by
        rw [mod_two_pow_succ, pow_add b, mul_pow, ← sq, ← pow_mul, ← pow_mul, pow_succ' 2 i, mul_assoc]
      rw [h2, hy]
      rcases Nat.eq_zero_or_pos i with rfl | hi
      · simp [modexpLoop, Nat.mod_one]
      · rw [ih _ hi]
        exact Nat.ModEq.mul_right _ ((Nat.mod_modEq _ _).pow _)
    simp only [modexpLoop]
    rcases (show bit x i = 0 ∨ bit x i = 1 by have := bit_lt_two x i; omega) with h | h
    · rw [h, if_neg (by omega)]; exact key (r * r) (by simp [h])
    · rw [h, if_pos rfl]; exact key (r * r % m * b) (by simp [h, Nat.mul_mod])

theorem modexp_eq_pow (b x : Nat) {m : Nat} (hm : 1 < m) : modexp b x m = b ^ x % m := by
  unfold modexp
  by_cases hx : x = 0
  · subst hx; simp [bitlen, modexpLoop, Nat.mod_eq_of_lt hm]
  · have hb : 0 < bitlen x := by simp [bitlen, hx]
    rw [modexpLoop_eq _ _ _ _ _ hb, one_pow, one_mul, Nat.mod_eq_of_lt (lt_two_pow_bitlen x), ← Nat.pow_mod]

theorem modexp_lt (b x : Nat) {m : Nat} (hm : 1 < m) : modexp b x m < m := by
  rw [modexp_eq_pow b x hm]; exact Nat.mod_lt _ (by omega)

/-! inverse -/

theorem euclid_spec (a m : Nat) (hm : 1 < m) : ∀ fuel r₀ r₁ t₀ t₁, r₁ < fuel → t₀ < m → t₁ < m →
    t₀ * a ≡ r₀ [MOD m] → t₁ * a ≡ r₁ [MOD m] →
    euclid m fuel r₀ r₁ t₀ t₁ < m ∧ euclid m fuel r₀ r₁ t₀ t₁ * a ≡ Nat.gcd r₀ r₁ [MOD m] := by
  intro fuel
  induction fuel with
  | zero => intro r₀ r₁ t₀ t₁ h; omega
  | succ fuel ih =>
    intro r₀ r₁ t₀ t₁ hf h0 h1 e0 e1
    simp only [euclid]
    split
    · next hr => subst hr; simpa using ⟨h0, e0⟩
    · next hr =>
      have hlt : r₀ % r₁ < r₁ := Nat.mod_lt _ (by omega)
      have key : (t₀ + (m - r₀ / r₁ * t₁ % m)) % m * a ≡ r₀ % r₁ [MOD m] := by
        refine ((Nat.mod_modEq _ _).mul_right a).trans ?_
        refine Nat.ModEq.add_right_cancel (c := r₀ / r₁ * t₁ % m * a) (d := r₀ / r₁ * r₁) ?_ ?_
        · refine ((Nat.mod_modEq _ _).mul_right a).trans ?_
          rw [mul_assoc]; exact e1.mul_left _
        · have hle : r₀ / r₁ * t₁ % m ≤ m := (Nat.mod_lt _ (by omega)).le
          rw [← Nat.add_mul, add_assoc, Nat.sub_add_cancel hle, Nat.mod_add_div' r₀ r₁, Nat.add_mul]
          have : m * a ≡ 0 [MOD m] := by simp [Nat.ModEq]
          simpa using e0.add this
      have := ih r₁ (r₀ % r₁) t₁ _ (by omega) h1 (Nat.mod_lt _ (by omega)) e1 key
      rwa [Nat.gcd_comm r₁, ← Nat.gcd_rec, Nat.gcd_comm] at this

theorem inv_spec {a m v : Nat} (hm : 1 < m) (h : inv a m = some v) : v < m ∧ a * v % m = 1 := by
  unfold inv at h
  split at h
  · next hg =>
    have := euclid_spec a m hm (m + 1) m (a % m) 0 1 (by have := Nat.mod_lt a (show 0 < m by omega); omega) (by omega) hm
      (by simp [Nat.ModEq]) (by simp [Nat.ModEq])
    rw [Option.some.inj h, Nat.gcd_comm m, ← Nat.gcd_rec, Nat.gcd_comm, hg] at this
    refine ⟨this.1, ?_⟩
    have h1 := this.2
    rwa [Nat.ModEq, Nat.mod_eq_of_lt hm, mul_comm] at h1
  · cases h

theorem inv_of_coprime {a m : Nat} (h : Nat.gcd a m = 1) : ∃ v, inv a m = some v := by
  simp [inv, h]

theorem inv_eq_none {a m : Nat} : inv a m = none ↔ Nat.gcd a m ≠ 1 := by
  unfold inv; split <;> simp [*]

theorem inv_unique {a m v u : Nat} (hm : 1 < m) (h : inv a m = some v) (hu : u < m) (he : a * u % m = 1) : u = v := by
  obtain ⟨hv, h1⟩ := inv_spec hm h
  have hc : Nat.gcd m a = 1 := by
    by_contra hc
    rw [inv_eq_none.2 (by rwa [Nat.gcd_comm] at hc)] at h; cases h
  have : u ≡ v [MOD m] := Nat.ModEq.cancel_left_of_coprime (c := a) hc (by rw [Nat.ModEq, he, h1])
  rwa [Nat.ModEq, Nat.mod_eq_of_lt hu, Nat.mod_eq_of_lt hv] at this

/-! Montgomery -/

theorem montRadix_coprime {n : Nat} (h : n % 2 = 1) : Nat.gcd (montRadix n) n = 1 := by
  unfold montRadix
  exact Nat.Coprime.pow_left _ ((Nat.coprime_two_left).2 (Nat.odd_iff.2 h))

theorem montmul_lt (a b : Nat) {n : Nat} (h : 0 < n) : montmul a b n < n := Nat.mod_lt _ h

theorem montmul_mul_radix (a b : Nat) {n : Nat} (h : 1 < n) (hodd : n % 2 = 1) :
    montmul a b n * montRadix n % n = a * b % n := by
  obtain ⟨v, hv⟩ := inv_of_coprime (montRadix_coprime hodd)
  have h1 := (inv_spec h hv).2
  have : montmul a b n * montRadix n ≡ a * b * 1 [MOD n] := by
    rw [montmul, hv, Option.getD_some]
    refine ((Nat.mod_modEq _ _).mul_right _).trans ?_
    rw [mul_assoc, mul_comm v]
    exact Nat.ModEq.mul_left _ (by rw [Nat.ModEq, h1, Nat.mod_eq_of_lt h])
  simpa [Nat.ModEq] using this

theorem lt_montRadix (n : Nat) : n < montRadix n := by
  refine (lt_two_pow_bitlen n).trans_le (Nat.pow_le_pow_right (by omega) ?_)
  unfold montBits ceilDiv; omega

/-! CRT -/

theorem crtH_lt (mp mq qinv : Nat) {q : Nat} (h : 0 < q) : crtH mp mq q qinv < q := Nat.mod_lt _ h

theorem crtCombine_lt {mp p q : Nat} (mq qinv : Nat) (hq : 0 < q) (hmp : mp < p) :
    crtCombine mp mq p q qinv < p * q := by
  have h := crtH_lt mp mq qinv hq
  unfold crtCombine
  calc mp + p * crtH mp mq q qinv < p + p * crtH mp mq q qinv := by omega
    _ = p * (crtH mp mq q qinv + 1) := by ring
    _ ≤ p * q := Nat.mul_le_mul_left _ h

/-- The recombination has the two residues it was made from -/
theorem crtCombine_mod_p {mp p : Nat} (mq q qinv : Nat) (hmp : mp < p) : crtCombine mp mq p q qinv % p = mp := by
  simp [crtCombine, Nat.mod_eq_of_lt hmp]

theorem crtCombine_mod_q {mp mq p q qinv : Nat} (hmq : mq < q) (hinv : p * qinv % q = 1) :
    crtCombine mp mq p q qinv % q = mq := by
  have hq : (0 : Int) < q := by omega
  have e : ((crtCombine mp mq p q qinv : Nat) : Int) ≡ mq [ZMOD q] := by
    have hh : ((crtH mp mq q qinv : Nat) : Int) ≡ ((mq : Int) - mp) * qinv [ZMOD q] := by
      unfold crtH
      push_cast
      rw [Int.toNat_of_nonneg (Int.emod_nonneg _ (by omega))]
      exact (Int.mod_modEq _ _).trans ((Int.mod_modEq _ _).mul_right _)
    have hi : (p : Int) * qinv ≡ 1 [ZMOD q] := by
      have h1 : 1 < q := by
        by_contra hq1
        have : q = 1 := by omega
        subst this; simp [Nat.mod_one] at hinv
      have : p * qinv ≡ 1 [MOD q] := by rw [Nat.ModEq, hinv, Nat.mod_eq_of_lt h1]
      exact_mod_cast (Int.natCast_modEq_iff.2 this)
    unfold crtCombine
    push_cast
    calc (mp : Int) + p * crtH mp mq q qinv ≡ mp + p * (((mq : Int) - mp) * qinv) [ZMOD q] := (hh.mul_left _).add_left _
      _ = mp + (p * qinv) * ((mq : Int) - mp) := by ring
      _ ≡ mp + 1 * ((mq : Int) - mp) [ZMOD q] := (hi.mul_right _).add_left _
      _ = mq := by ring
  have := Int.natCast_modEq_iff.1 e
  rwa [Nat.ModEq, Nat.mod_eq_of_lt hmq] at this

/-! Miller-Rabin -/

theorem splitTwos_spec : ∀ fuel t s, 0 < t → t < 2 ^ fuel →
    (splitTwos fuel t s).1 % 2 = 1 ∧ s ≤ (splitTwos fuel t s).2 ∧
      (splitTwos fuel t s).1 * 2 ^ ((splitTwos fuel t s).2 - s) = t := by
  intro fuel
  induction fuel with
  | zero => intro t s h h2; omega
  | succ fuel ih =>
    intro t s h h2
    simp only [splitTwos]
    split
    · next he =>
      obtain ⟨h1, h3, h4⟩ := ih (t / 2) (s + 1) (by omega) (by rw [pow_succ] at h2; omega)
      refine ⟨h1, by omega, ?_⟩
      have : (splitTwos fuel (t / 2) (s + 1)).2 - s = ((splitTwos fuel (t / 2) (s + 1)).2 - (s + 1)) + 1 := by omega
      rw [this, pow_succ, ← mul_assoc, h4]; omega
    · simp; omega

theorem mrSquares_true {n : Nat} : ∀ k x, mrSquares n k x = true → ∃ j, 0 < j ∧ j ≤ k ∧ x ^ 2 ^ j % n = (n - 1) := by
  intro k
  induction k with
  | zero => intro x h; simp [mrSquares] at h
  | succ k ih =>
    intro x h
    simp only [mrSquares] at h
    split at h
    · next hy => exact ⟨1, by omega, by omega, by rw [pow_one, sq, hy]⟩
    · obtain ⟨j, h0, hj, he⟩ := ih _ h
      refine ⟨j + 1, by omega, by omega, ?_⟩
      rw [← he, pow_succ', pow_mul, sq, ← Nat.pow_mod]

/-! exponent search -/

theorem selectFrom_some {phi limit : Nat} : ∀ {fuel e v : Nat}, e < limit → selectFrom phi limit fuel e = some v →
    e ≤ v ∧ v < limit ∧ Nat.gcd v phi = 1 ∧ ∀ u, e ≤ u → u < v → Nat.gcd u phi ≠ 1 := by
  intro fuel
  induction fuel with
  | zero => intro e v _ h; cases h
  | succ fuel ih =>
    intro e v he h
    simp only [selectFrom] at h
    split at h
    · next hg => cases h; exact ⟨le_rfl, he, hg, fun u h1 h2 => by omega⟩
    · next hg =>
      split at h
      · cases h
      · obtain ⟨h1, h2, h3, h4⟩ := ih (by omega) h
        refine ⟨by omega, h2, h3, fun u hu hv => ?_⟩
        rcases eq_or_lt_of_le hu with rfl | hu
        · exact hg
        · exact h4 u (by omega) hv

theorem selectFrom_none {phi limit : Nat} : ∀ {fuel e : Nat}, limit ≤ e + fuel → e < limit →
    selectFrom phi limit fuel e = none → ∀ u, e ≤ u → u < limit → Nat.gcd u phi ≠ 1 := by
  intro fuel
  induction fuel with
  | zero => intro e h1 h2; omega
  | succ fuel ih =>
    intro e h1 h2 h u hu hl
    simp only [selectFrom] at h
    split at h
    · cases h
    · next hg =>
      rcases eq_or_lt_of_le hu with rfl | hu
      · exact hg
      · split at h
        · omega
        · exact ih (by omega) (by omega) h u (by omega) hl

end Sys2Proof.Machine
end

