-- ==== Sys2Proof/Laws/Decode.lean ====
section
/-! SUPPORT. Format C as numbers, and what the masks of R95 ask of a word. -/

namespace Sys2Proof

/-- A field of a word is its value at the field's position (R10). -/
theorem extract_toNat (w : Word) (k n : Nat) : (w.extractLsb' k n).toNat = w.toNat / 2 ^ k % 2 ^ n := by
  rw [BitVec.extractLsb'_toNat, Nat.shiftRight_eq_div_pow]

theorem Fields.toWord_toNat (f : Fields) : f.toWord.toNat =
    f.op.toNat + f.rd.toNat * 2 ^ 6 + f.rs1.toNat * 2 ^ 9 + f.rs2.toNat * 2 ^ 12
    + f.rs3.toNat * 2 ^ 15 + f.rs4.toNat * 2 ^ 18 + f.rs5.toNat * 2 ^ 21 + f.rsv.toNat * 2 ^ 24 := by
  have h0 := f.op.isLt; have h1 := f.rd.isLt; have h2 := f.rs1.isLt; have h3 := f.rs2.isLt; have h4 := f.rs3.isLt
  have h5 := f.rs4.isLt; have h6 := f.rs5.isLt; have h7 := f.rsv.isLt
  rw [Fields.toWord, BitVec.toNat_ofNat]
  generalize f.op.toNat = a at *; generalize f.rd.toNat = b at *; generalize f.rs1.toNat = c at *
  generalize f.rs2.toNat = d at *; generalize f.rs3.toNat = e at *; generalize f.rs4.toNat = i at *
  generalize f.rs5.toNat = g at *; generalize f.rsv.toNat = h at *
  omega

theorem Fields.ofWord_toWord (f : Fields) : Fields.ofWord f.toWord = f := by
  have h0 := f.op.isLt; have h1 := f.rd.isLt; have h2 := f.rs1.isLt; have h3 := f.rs2.isLt; have h4 := f.rs3.isLt
  have h5 := f.rs4.isLt; have h6 := f.rs5.isLt; have h7 := f.rsv.isLt
  have hw := Fields.toWord_toNat f
  generalize f.toWord = w at *
  obtain ⟨op, rd, rs1, rs2, rs3, rs4, rs5, rsv⟩ := f
  simp only [Fields.ofWord, Fields.mk.injEq, ← BitVec.toNat_inj, extract_toNat]
  simp only at *
  generalize w.toNat = n at *
  generalize op.toNat = a at *; generalize rd.toNat = b at *; generalize rs1.toNat = c at *
  generalize rs2.toNat = d at *; generalize rs3.toNat = e at *; generalize rs4.toNat = f at *
  generalize rs5.toNat = g at *; generalize rsv.toNat = h at *
  omega

theorem Fields.toWord_ofWord (w : Word) : (Fields.ofWord w).toWord = w := by
  have := w.isLt
  apply BitVec.eq_of_toNat_eq
  rw [Fields.toWord_toNat]
  simp only [Fields.ofWord, extract_toNat]
  omega

/-- The masks of R95 cover the low `l` bits and every bit from `k` on. -/
theorem and_mask (w : Word) {l k : Nat} (hl : l ≤ k) (hk : k ≤ 32) :
    (w &&& (BitVec.allOnes 32 <<< k ||| BitVec.ofNat 32 (2 ^ l - 1))).toNat
      = w.toNat / 2 ^ k * 2 ^ k + w.toNat % 2 ^ l := by
  have hlt : 2 ^ l - 1 < 2 ^ 32 := by
    have := Nat.pow_le_pow_right (show 0 < 2 by omega) (hl.trans hk)
    have : 0 < 2 ^ l := by positivity
    omega
  have key : w &&& (BitVec.allOnes 32 <<< k ||| BitVec.ofNat 32 (2 ^ l - 1))
      = (w >>> k <<< k) ||| (w &&& BitVec.ofNat 32 (2 ^ l - 1)) := by
    apply BitVec.eq_of_getLsbD_eq
    intro i hi
    simp only [BitVec.getLsbD_and, BitVec.getLsbD_or, BitVec.getLsbD_shiftLeft, BitVec.getLsbD_allOnes, BitVec.getLsbD_ushiftRight]
    by_cases h : k ≤ i
    · have h1 : ¬ i < k := by omega
      have h2 : k + (i - k) = i := by omega
      have h3 : i - k < 32 := by omega
      simp only [hi, h1, h2, h3, decide_true, decide_false, Bool.not_false, Bool.true_or, Bool.and_true, Bool.true_and]
      cases w.getLsbD i <;> simp
    · simp [show i < k by omega]
  have hd : w.toNat / 2 ^ k * 2 ^ k ≤ w.toNat := Nat.div_mul_le_self _ _
  have hw := w.isLt
  have hm : w.toNat % 2 ^ l < 2 ^ k :=
    (Nat.mod_lt _ (by positivity)).trans_le (Nat.pow_le_pow_right (by omega) hl)
  rw [key, BitVec.toNat_or, BitVec.toNat_shiftLeft, BitVec.toNat_ushiftRight, BitVec.toNat_and, BitVec.toNat_ofNat,
    Nat.mod_eq_of_lt hlt, Nat.and_two_pow_sub_one_eq_mod, Nat.shiftRight_eq_div_pow, Nat.shiftLeft_eq,
    Nat.mod_eq_of_lt (hd.trans_lt hw), ← Nat.shiftLeft_eq, ← Nat.shiftLeft_add_eq_or_of_lt hm, Nat.shiftLeft_eq]

/-- What a row of R95 asks of a word: its OP (with the unused RD where the mask covers it) and zeros from
bit `k` on. -/
theorem and_mask_eq_iff (w : Word) {l k m : Nat} (hl : l ≤ k) (hk : k ≤ 32) (hm : m < 2 ^ l) :
    w &&& (BitVec.allOnes 32 <<< k ||| BitVec.ofNat 32 (2 ^ l - 1)) = BitVec.ofNat 32 m
      ↔ w.toNat % 2 ^ l = m ∧ w.toNat < 2 ^ k := by
  have h1 := Nat.pow_le_pow_right (show 0 < 2 by omega) (hl.trans hk)
  have h2 := Nat.pow_le_pow_right (show 0 < 2 by omega) hl
  rw [← BitVec.toNat_inj, and_mask w hl hk, BitVec.toNat_ofNat, Nat.mod_eq_of_lt (hm.trans_le h1)]
  have hlt : w.toNat % 2 ^ l < 2 ^ l := Nat.mod_lt _ (by positivity)
  constructor
  · intro h
    have : w.toNat / 2 ^ k = 0 := by
      by_contra h0
      have : 1 * 2 ^ k ≤ w.toNat / 2 ^ k * 2 ^ k := Nat.mul_le_mul_right _ (Nat.pos_of_ne_zero h0)
      omega
    rw [this] at h
    exact ⟨by omega, (Nat.div_eq_zero_iff_lt (by positivity)).1 this⟩
  · rintro ⟨h, h0⟩
    rw [Nat.div_eq_of_lt h0]; omega

/-- The fields of a word, as numbers. -/
theorem Fields.ofWord_toNat (w : Word) :
    (Fields.ofWord w).op.toNat = w.toNat % 2 ^ 6
    ∧ (Fields.ofWord w).rd.toNat = w.toNat / 2 ^ 6 % 2 ^ 3
    ∧ (Fields.ofWord w).rs1.toNat = w.toNat / 2 ^ 9 % 2 ^ 3
    ∧ (Fields.ofWord w).rs2.toNat = w.toNat / 2 ^ 12 % 2 ^ 3
    ∧ (Fields.ofWord w).rs3.toNat = w.toNat / 2 ^ 15 % 2 ^ 3
    ∧ (Fields.ofWord w).rs4.toNat = w.toNat / 2 ^ 18 % 2 ^ 3
    ∧ (Fields.ofWord w).rs5.toNat = w.toNat / 2 ^ 21 % 2 ^ 3
    ∧ (Fields.ofWord w).rsv.toNat = w.toNat / 2 ^ 24 % 2 ^ 8 := by
  simp only [Fields.ofWord, extract_toNat, pow_zero, Nat.div_one, and_self]

theorem ofReg_toReg (v : BitVec 3) : ofReg (toReg v) = v := by
  apply BitVec.eq_of_toNat_eq
  simp [ofReg, toReg]

theorem toReg_ofReg (r : Reg) : toReg (ofReg r) = r := by
  apply Fin.ext
  simp [ofReg, toReg]

/-- The mask of the instruction's row of R95. -/
def rowMask : Instr → Word
  | .nop => 0xFFFFFFFF
  | .modmul .. => 0xFFFC003F
  | .montmul .. => 0xFFFC003F
  | .modexp .. => 0xFFFC003F
  | .crtRecombine .. => 0xFF00003F
  | .mrRound .. => 0xFFFF803F
  | .mrTest .. => 0xFFFFF03F
  | .primegen .. => 0xFFFFFE3F
  | .keyderive .. => 0xFFFF81FF
  | .keygen => 0xFFFFFFFF
  | .encBlock .. => 0xFFFFF03F
  | .decBlock .. => 0xFFFFF03F

/-- The match of the instruction's row of R95. -/
def rowMatch : Instr → Word
  | .nop => 0x00000000
  | .modmul .. => 0x00000001
  | .montmul .. => 0x00000002
  | .modexp .. => 0x00000003
  | .crtRecombine .. => 0x00000004
  | .mrRound .. => 0x00000005
  | .mrTest .. => 0x00000006
  | .primegen .. => 0x00000007
  | .keyderive .. => 0x00000008
  | .keygen => 0x00000009
  | .encBlock .. => 0x0000000A
  | .decBlock .. => 0x0000000B

theorem ofReg_lt (r : Reg) : (ofReg r).toNat < 8 := (ofReg r).isLt

theorem fields_toNat {w : Word} {f : Fields} (h : Fields.ofWord w = f) : w.toNat =
    f.op.toNat + f.rd.toNat * 2 ^ 6 + f.rs1.toNat * 2 ^ 9 + f.rs2.toNat * 2 ^ 12
    + f.rs3.toNat * 2 ^ 15 + f.rs4.toNat * 2 ^ 18 + f.rs5.toNat * 2 ^ 21 + f.rsv.toNat * 2 ^ 24 := by
  rw [← Fields.toWord_toNat, ← h, Fields.toWord_ofWord]

theorem mask_low18 {w : Word} {m : Nat} (hm : m < 2 ^ 6) :
    w &&& 0xFFFC003F = BitVec.ofNat 32 m ↔ w.toNat % 2 ^ 6 = m ∧ w.toNat < 2 ^ 18 :=
  and_mask_eq_iff w (l := 6) (k := 18) (by decide) (by decide) hm
theorem mask_low24 {w : Word} {m : Nat} (hm : m < 2 ^ 6) :
    w &&& 0xFF00003F = BitVec.ofNat 32 m ↔ w.toNat % 2 ^ 6 = m ∧ w.toNat < 2 ^ 24 :=
  and_mask_eq_iff w (l := 6) (k := 24) (by decide) (by decide) hm
theorem mask_low15 {w : Word} {m : Nat} (hm : m < 2 ^ 6) :
    w &&& 0xFFFF803F = BitVec.ofNat 32 m ↔ w.toNat % 2 ^ 6 = m ∧ w.toNat < 2 ^ 15 :=
  and_mask_eq_iff w (l := 6) (k := 15) (by decide) (by decide) hm
theorem mask_low12 {w : Word} {m : Nat} (hm : m < 2 ^ 6) :
    w &&& 0xFFFFF03F = BitVec.ofNat 32 m ↔ w.toNat % 2 ^ 6 = m ∧ w.toNat < 2 ^ 12 :=
  and_mask_eq_iff w (l := 6) (k := 12) (by decide) (by decide) hm
theorem mask_low9 {w : Word} {m : Nat} (hm : m < 2 ^ 6) :
    w &&& 0xFFFFFE3F = BitVec.ofNat 32 m ↔ w.toNat % 2 ^ 6 = m ∧ w.toNat < 2 ^ 9 :=
  and_mask_eq_iff w (l := 6) (k := 9) (by decide) (by decide) hm
theorem mask_noRd15 {w : Word} {m : Nat} (hm : m < 2 ^ 9) :
    w &&& 0xFFFF81FF = BitVec.ofNat 32 m ↔ w.toNat % 2 ^ 9 = m ∧ w.toNat < 2 ^ 15 :=
  and_mask_eq_iff w (l := 9) (k := 15) (by decide) (by decide) hm
theorem mask_all {w m : Word} : w &&& 0xFFFFFFFF = m ↔ w = m := by
  have : w &&& 0xFFFFFFFF = w := BitVec.and_allOnes
  rw [this]

/-- A word with the fields of `i` is in the row of `i`. -/
theorem row_of_fields {w : Word} {i : Instr} (h : Fields.ofWord w = i.fields) : w &&& rowMask i = rowMatch i := by
  have hn := fields_toNat h
  clear h
  cases i with
  | nop => exact mask_all.2 (BitVec.eq_of_toNat_eq hn)
  | keygen => exact mask_all.2 (BitVec.eq_of_toNat_eq hn)
  | modmul rd a b n =>
    have := ofReg_lt rd; have := ofReg_lt a; have := ofReg_lt b; have := ofReg_lt n
    simp [Instr.fields] at hn
    exact (mask_low18 (m := 1) (by decide)).2 ⟨by omega, by omega⟩
  | montmul rd a b n =>
    have := ofReg_lt rd; have := ofReg_lt a; have := ofReg_lt b; have := ofReg_lt n
    simp [Instr.fields] at hn
    exact (mask_low18 (m := 2) (by decide)).2 ⟨by omega, by omega⟩
  | modexp rd a b n =>
    have := ofReg_lt rd; have := ofReg_lt a; have := ofReg_lt b; have := ofReg_lt n
    simp [Instr.fields] at hn
    exact (mask_low18 (m := 3) (by decide)).2 ⟨by omega, by omega⟩
  | crtRecombine rd a b c d e =>
    have := ofReg_lt rd; have := ofReg_lt a; have := ofReg_lt b; have := ofReg_lt c; have := ofReg_lt d; have := ofReg_lt e
    simp [Instr.fields] at hn
    exact (mask_low24 (m := 4) (by decide)).2 ⟨by omega, by omega⟩
  | mrRound rd a b =>
    have := ofReg_lt rd; have := ofReg_lt a; have := ofReg_lt b
    simp [Instr.fields] at hn
    exact (mask_low15 (m := 5) (by decide)).2 ⟨by omega, by omega⟩
  | mrTest rd a =>
    have := ofReg_lt rd; have := ofReg_lt a
    simp [Instr.fields] at hn
    exact (mask_low12 (m := 6) (by decide)).2 ⟨by omega, by omega⟩
  | primegen rd =>
    have := ofReg_lt rd
    simp [Instr.fields] at hn
    exact (mask_low9 (m := 7) (by decide)).2 ⟨by omega, by omega⟩
  | keyderive a b =>
    have := ofReg_lt a; have := ofReg_lt b
    simp [Instr.fields] at hn
    exact (mask_noRd15 (m := 8) (by decide)).2 ⟨by omega, by omega⟩
  | encBlock rd a =>
    have := ofReg_lt rd; have := ofReg_lt a
    simp [Instr.fields] at hn
    exact (mask_low12 (m := 10) (by decide)).2 ⟨by omega, by omega⟩
  | decBlock rd a =>
    have := ofReg_lt rd; have := ofReg_lt a
    simp [Instr.fields] at hn
    exact (mask_low12 (m := 11) (by decide)).2 ⟨by omega, by omega⟩

/-- The decoder takes a word with the fields of `i` to the row of `i`. -/
theorem decode_of_fields {w : Word} {i : Instr} (h : Fields.ofWord w = i.fields) :
    decode w = checked w (rowMask i) (rowMatch i) i := by
  cases i <;> simp [decode, h, Instr.fields, toReg_ofReg, rowMask, rowMatch]


theorem bv_zero {n : Nat} {v : BitVec n} (h : v.toNat = 0) : v = 0 := BitVec.eq_of_toNat_eq (by simpa using h)

theorem checked_ok {w a b : Word} {i j : Instr} (h : checked w a b i = .ok j) : w &&& a = b ∧ i = j := by
  unfold checked at h
  split at h
  · exact ⟨by assumption, by cases h; rfl⟩
  · cases h

/-- A word that decodes to `i` has the fields of `i`: no word outside a row of R95 is a command. -/
theorem fields_of_decode {w : Word} {i : Instr} (h : decode w = .ok i) : Fields.ofWord w = i.fields := by
  have hw := w.isLt
  obtain ⟨f0, f1, f2, f3, f4, f5, f6, f7⟩ := Fields.ofWord_toNat w
  unfold decode at h
  generalize hF : Fields.ofWord w = F at *
  obtain ⟨op, rd, rs1, rs2, rs3, rs4, rs5, rsv⟩ := F
  simp only at *
  have op_of : ∀ k : Nat, k < 64 → op.toNat = k → op = BitVec.ofNat 6 k := fun k hk h => BitVec.eq_of_toNat_eq (by simp [h]; omega)
  split at h
  all_goals first | (obtain ⟨hm, rfl⟩ := checked_ok h) | cases h
  · next h0 => rw [mask_all] at hm; subst hm; rw [← hF]; decide
  · next h0 =>
    have hm := (mask_low18 (m := 1) (by decide)).1 hm
    simp only [Instr.fields, ofReg_toReg, Fields.mk.injEq, true_and]
    exact ⟨op_of 1 (by decide) h0, bv_zero (by omega), bv_zero (by omega), bv_zero (by omega)⟩
  · next h0 =>
    have hm := (mask_low18 (m := 2) (by decide)).1 hm
    simp only [Instr.fields, ofReg_toReg, Fields.mk.injEq, true_and]
    exact ⟨op_of 2 (by decide) h0, bv_zero (by omega), bv_zero (by omega), bv_zero (by omega)⟩
  · next h0 =>
    have hm := (mask_low18 (m := 3) (by decide)).1 hm
    simp only [Instr.fields, ofReg_toReg, Fields.mk.injEq, true_and]
    exact ⟨op_of 3 (by decide) h0, bv_zero (by omega), bv_zero (by omega), bv_zero (by omega)⟩
  · next h0 =>
    have hm := (mask_low24 (m := 4) (by decide)).1 hm
    simp only [Instr.fields, ofReg_toReg, Fields.mk.injEq, true_and]
    exact ⟨op_of 4 (by decide) h0, bv_zero (by omega)⟩
  · next h0 =>
    have hm := (mask_low15 (m := 5) (by decide)).1 hm
    simp only [Instr.fields, ofReg_toReg, Fields.mk.injEq, true_and]
    exact ⟨op_of 5 (by decide) h0, bv_zero (by omega), bv_zero (by omega), bv_zero (by omega), bv_zero (by omega)⟩
  · next h0 =>
    have hm := (mask_low12 (m := 6) (by decide)).1 hm
    simp only [Instr.fields, ofReg_toReg, Fields.mk.injEq, true_and]
    exact ⟨op_of 6 (by decide) h0, bv_zero (by omega), bv_zero (by omega), bv_zero (by omega), bv_zero (by omega), bv_zero (by omega)⟩
  · next h0 =>
    have hm := (mask_low9 (m := 7) (by decide)).1 hm
    simp only [Instr.fields, ofReg_toReg, Fields.mk.injEq, true_and]
    exact ⟨op_of 7 (by decide) h0, bv_zero (by omega), bv_zero (by omega), bv_zero (by omega), bv_zero (by omega), bv_zero (by omega), bv_zero (by omega)⟩
  · next h0 =>
    have hm := (mask_noRd15 (m := 8) (by decide)).1 hm
    simp only [Instr.fields, ofReg_toReg, Fields.mk.injEq, true_and]
    exact ⟨op_of 8 (by decide) h0, bv_zero (by omega), bv_zero (by omega), bv_zero (by omega), bv_zero (by omega), bv_zero (by omega)⟩
  · next h0 => rw [mask_all] at hm; subst hm; rw [← hF]; decide
  · next h0 =>
    have hm := (mask_low12 (m := 10) (by decide)).1 hm
    simp only [Instr.fields, ofReg_toReg, Fields.mk.injEq, true_and]
    exact ⟨op_of 10 (by decide) h0, bv_zero (by omega), bv_zero (by omega), bv_zero (by omega), bv_zero (by omega), bv_zero (by omega)⟩
  · next h0 =>
    have hm := (mask_low12 (m := 11) (by decide)).1 hm
    simp only [Instr.fields, ofReg_toReg, Fields.mk.injEq, true_and]
    exact ⟨op_of 11 (by decide) h0, bv_zero (by omega), bv_zero (by omega), bv_zero (by omega), bv_zero (by omega), bv_zero (by omega)⟩


end Sys2Proof
end

