-- ==== Sys2Proof/Laws/Random.lean ====
section
/-! SUPPORT. What the draws, the probabilistic test and the prime search answer. -/

namespace Sys2Proof.Machine

/-! ## Draws -/

theorem drawBase_range (stream : Nat → Word) {n : Nat} (hn : 5 ≤ n) (pos : Nat) :
    2 ≤ drawBase stream n pos ∧ drawBase stream n pos ≤ n - 2 := by
  have := Nat.mod_lt (rngWords stream (baseWords n) pos 0) (show 0 < n - 3 by omega)
  unfold drawBase; omega

theorem forceBit_top {c l : Nat} (h : c < 2 ^ l) (hl : 0 < l) :
    2 ^ (l - 1) ≤ forceBit c (l - 1) ∧ forceBit c (l - 1) < 2 ^ l := by
  obtain ⟨k, rfl⟩ : ∃ k, l = k + 1 := ⟨l - 1, by omega⟩
  simp only [Nat.add_sub_cancel, forceBit, bit]
  rw [pow_succ] at *
  have h1 := Nat.div_add_mod' c (2 ^ k)
  have h2 := Nat.mod_lt c (show 0 < 2 ^ k by positivity)
  have h3 : c / 2 ^ k < 2 := (Nat.div_lt_iff_lt_mul (by positivity)).2 (by omega)
  split
  · next h4 =>
    have : c / 2 ^ k = 0 := by rwa [Nat.mod_eq_of_lt h3] at h4
    rw [this] at h1; omega
  · next h4 =>
    have : c / 2 ^ k = 1 := by
      rw [Nat.mod_eq_of_lt h3] at h4
      exact le_antisymm (Nat.lt_succ_iff.1 h3) (Nat.pos_of_ne_zero h4)
    rw [this] at h1; omega

theorem forceBit_zero (c : Nat) : forceBit c 0 % 2 = 1 ∧ c ≤ forceBit c 0 ∧ forceBit c 0 ≤ c + (1 - c % 2) := by
  simp only [forceBit, bit, pow_zero, Nat.div_one]
  split <;> omega

theorem drawCandidate_spec (stream : Nat → Word) {l : Nat} (hl : 2 ≤ l) (pos : Nat) :
    2 ^ (l - 1) < drawCandidate stream l pos ∧ drawCandidate stream l pos < 2 ^ l
      ∧ drawCandidate stream l pos % 2 = 1 := by
  unfold drawCandidate
  have h := forceBit_top (Nat.mod_lt (rngWords stream (candidateWords l) pos 0) (show 0 < 2 ^ l by positivity))
    (show 0 < l by omega)
  generalize forceBit (rngWords stream (candidateWords l) pos 0 % 2 ^ l) (l - 1) = c at *
  have h0 := forceBit_zero c
  obtain ⟨k, rfl⟩ : ∃ k, l = k + 2 := ⟨l - 2, by omega⟩
  have e1 : 2 ^ (k + 2 - 1) = 2 * 2 ^ k := by rw [show k + 2 - 1 = k + 1 by omega, pow_succ]; ring
  have e2 : 2 ^ (k + 2) = 2 * (2 * 2 ^ k) := by rw [pow_add]; ring
  have h1 := h.1
  have h2 := h.2
  rw [e1] at h1 ⊢
  rw [e2] at h2 ⊢
  omega

theorem mrRoundsFrom_pos_le (stream : Nat → Word) (n : Nat) : ∀ k pos, pos ≤ (mrRoundsFrom stream n k pos).2 := by
  intro k
  induction k with
  | zero => intro pos; exact le_rfl
  | succ k ih =>
    intro pos
    simp only [mrRoundsFrom]
    split
    · exact (Nat.le_add_right _ _).trans (ih _)
    · exact Nat.le_add_right _ _

theorem mrTest_pos_le (stream : Nat → Word) (n pos : Nat) : pos ≤ (mrTest stream n pos).2 := by
  unfold mrTest
  split
  · exact le_rfl
  · split
    · exact le_rfl
    · split
      · exact le_rfl
      · exact mrRoundsFrom_pos_le _ _ _ _

/-- Every round passed when the test did. -/
theorem mrRoundsFrom_true (stream : Nat → Word) (n : Nat) : ∀ k pos, (mrRoundsFrom stream n k pos).1 = true →
    (∀ i < k, mrRound n (drawBase stream n (pos + i * baseWords n)) = true)
      ∧ (mrRoundsFrom stream n k pos).2 = pos + k * baseWords n := by
  intro k
  induction k with
  | zero => intro pos _; exact ⟨fun i h => absurd h (by omega), by simp [mrRoundsFrom]⟩
  | succ k ih =>
    intro pos h
    simp only [mrRoundsFrom] at h ⊢
    split at h
    · next hr =>
      rw [if_pos hr]
      obtain ⟨h1, h2⟩ := ih _ h
      refine ⟨fun i hi => ?_, by rw [h2]; ring⟩
      cases i with
      | zero => simpa using hr
      | succ i => rw [show pos + (i + 1) * baseWords n = pos + baseWords n + i * baseWords n by ring]; exact h1 i (by omega)
    · cases h

/-- What the prime search answers. -/
theorem primegenFrom_spec (stream : Nat → Word) {l : Nat} (hl : 2 ≤ l) : ∀ k pos,
    pos ≤ (primegenFrom stream l k pos).2 ∧
    ∀ c, (primegenFrom stream l k pos).1 = some c →
      2 ^ (l - 1) < c ∧ c < 2 ^ l ∧ c % 2 = 1 ∧
      ∃ at', mrTest stream c at' = (true, (primegenFrom stream l k pos).2) := by
  intro k
  induction k with
  | zero => intro pos; exact ⟨le_rfl, fun c h => by cases h⟩
  | succ k ih =>
    intro pos
    simp only [primegenFrom]
    have hp := mrTest_pos_le stream (drawCandidate stream l pos) (pos + candidateWords l)
    split
    · next ht =>
      refine ⟨(Nat.le_add_right _ _).trans hp, fun c h => ?_⟩
      cases h
      obtain ⟨h1, h2, h3⟩ := drawCandidate_spec stream hl pos
      exact ⟨h1, h2, h3, _, Prod.ext ht rfl⟩
    · exact ⟨((Nat.le_add_right _ _).trans hp).trans (ih _).1, (ih _).2⟩

theorem primegen_pos_le (c : Config) {l : Nat} (hl : 2 ≤ l) (pos : Nat) : pos ≤ (primegen c l pos).2 :=
  (primegenFrom_spec c.stream hl _ pos).1

theorem primegen_some {c : Config} {l pos p : Nat} (hl : 2 ≤ l) (h : (primegen c l pos).1 = some p) :
    2 ^ (l - 1) < p ∧ p < 2 ^ l ∧ p % 2 = 1 ∧ ∃ at', mrTest c.stream p at' = (true, (primegen c l pos).2) :=
  (primegenFrom_spec c.stream hl _ pos).2 p h

end Sys2Proof.Machine
end

