-- ==== Sys2Proof/Laws/Key.lean ====
section
/-! SUPPORT. What key derivation answers, and what a valid key satisfies. -/

namespace Sys2Proof.Machine

theorem drawPrimes_spec (c : Config) {l : Nat} (hl : 2 ≤ l) (pos : Nat) :
    pos ≤ (drawPrimes c l pos).2 ∧
    ∀ p q, (drawPrimes c l pos).1 = some (p, q) →
      (primegen c l pos).1 = some p ∧ (primegen c l (primegen c l pos).2).1 = some q := by
  unfold drawPrimes
  have h1 := primegen_pos_le c hl pos
  have h2 := primegen_pos_le c hl (primegen c l pos).2
  dsimp only
  cases hp : (primegen c l pos).1 with
  | none => exact ⟨h1, fun p q h => by cases h⟩
  | some p =>
    cases hq : (primegen c l (primegen c l pos).2).1 with
    | none => exact ⟨h1.trans h2, fun p q h => by cases h⟩
    | some q => exact ⟨h1.trans h2, fun p' q' h => by cases h; exact ⟨rfl, rfl⟩⟩

/-! ## Key derivation -/

theorem selectE_ok {c : Config} {phi e : Nat} (hl : Config.eStart < c.eLimit) (h : selectE c phi = .ok e) :
    Config.eStart ≤ e ∧ e < c.eLimit ∧ Nat.gcd e phi = 1
      ∧ ∀ u, Config.eStart ≤ u → u < e → Nat.gcd u phi ≠ 1 := by
  unfold selectE at h
  cases hs : selectFrom phi c.eLimit c.eLimit Config.eStart with
  | none => rw [hs] at h; cases h
  | some v =>
    rw [hs] at h; cases h
    exact selectFrom_some hl hs

theorem selectE_of_coprime {c : Config} {phi u : Nat} (h1 : Config.eStart ≤ u) (h2 : u < c.eLimit)
    (h3 : Nat.gcd u phi = 1) : ∃ e, selectE c phi = .ok e := by
  unfold selectE
  cases hs : selectFrom phi c.eLimit c.eLimit Config.eStart with
  | none => exact absurd h3 (selectFrom_none (Nat.le_add_left _ _) (Nat.lt_of_le_of_lt h1 h2) hs u h1 h2)
  | some v => exact ⟨v, rfl⟩

theorem selectE_error {c : Config} {phi : Nat} {x : ErrorCode} (h : selectE c phi = .error x) : x = .keygen := by
  unfold selectE at h
  cases hs : selectFrom phi c.eLimit c.eLimit Config.eStart with
  | none => rw [hs] at h; cases h; rfl
  | some v => rw [hs] at h; cases h

theorem Config.legal_iff (c : Config) : c.legal = true ↔
    c.width % 32 = 0 ∧ 64 ≤ c.width ∧ c.width ≤ 8192 ∧ Config.eStart < c.eLimit ∧ c.eLimit ≤ 2 ^ 64 := by
  simp only [Config.legal, Bool.and_eq_true, decide_eq_true_eq, and_assoc]

/-- Everything `derive` can answer: a key with these nine values, or E_KEYGEN. -/
theorem derive_cases (c : Config) (p q : Nat) :
    (∃ e d qinv, derive c p q = .ok
        { p := p, q := q, n := p * q, phi := (p - 1) * (q - 1), e := e, d := d,
          dp := d % (p - 1), dq := d % (q - 1), qinv := qinv }
      ∧ 3 ≤ p ∧ 3 ≤ q ∧ p * q < 2 ^ c.width ∧ selectE c ((p - 1) * (q - 1)) = .ok e
      ∧ inv e ((p - 1) * (q - 1)) = some d ∧ inv p q = some qinv)
    ∨ derive c p q = .error .keygen := by
  unfold derive
  split
  · exact .inr rfl
  · split
    · exact .inr rfl
    · dsimp only
      cases he : selectE c ((p - 1) * (q - 1)) with
      | error x => exact .inr (by rw [selectE_error he])
      | ok e =>
        dsimp only
        cases hd : inv e ((p - 1) * (q - 1)) with
        | none => exact .inr rfl
        | some d =>
          dsimp only
          cases hq : inv p q with
          | none => exact .inr rfl
          | some qinv => exact .inl ⟨e, d, qinv, rfl, by omega, by omega, by omega, rfl, hd, rfl⟩

theorem phi_gt_one {p q : Nat} (hp : 3 ≤ p) (hq : 3 ≤ q) : 1 < (p - 1) * (q - 1) := by
  have : 2 * 2 ≤ (p - 1) * (q - 1) := Nat.mul_le_mul (by omega) (by omega)
  omega

/-- An installed key is valid (R151). -/
theorem derive_valid {c : Config} {p q : Nat} {k : KeyBank} (hc : c.legal = true) (h : derive c p q = .ok k) :
    k.Valid c.width := by
  rcases derive_cases c p q with ⟨e, d, qinv, hk, hp, hq, hn, he, hd, hi⟩ | hk
  · rw [hk] at h; cases h
    obtain ⟨-, hw, -, hl, hl2⟩ := (Config.legal_iff c).1 hc
    obtain ⟨e1, e2, e3, -⟩ := selectE_ok hl he
    obtain ⟨d1, d2⟩ := inv_spec (phi_gt_one hp hq) hd
    obtain ⟨q1, q2⟩ := inv_spec (by omega) hi
    have h64 : 2 ^ 64 ≤ 2 ^ c.width := Nat.pow_le_pow_right (by omega) hw
    exact ⟨hp, hq, rfl, hn, rfl, e1, (e2.trans_le hl2).trans_le h64, e3, d1, by rwa [Nat.mul_comm], rfl, rfl, q1, q2⟩
  · rw [hk] at h; cases h

/-- When `derive` succeeds (R147): exactly when none of its checks fails. -/
theorem derive_ok_of {c : Config} {p q u : Nat} (hp : 3 ≤ p) (hq : 3 ≤ q) (hn : p * q < 2 ^ c.width)
    (h1 : Config.eStart ≤ u) (h2 : u < c.eLimit) (h3 : Nat.gcd u ((p - 1) * (q - 1)) = 1) (hg : Nat.gcd p q = 1) :
    ∃ k, derive c p q = .ok k := by
  obtain ⟨e, he⟩ := selectE_of_coprime h1 h2 h3
  obtain ⟨d, hd⟩ := inv_of_coprime (selectE_ok (Nat.lt_of_le_of_lt h1 h2) he).2.2.1
  obtain ⟨qi, hi⟩ := inv_of_coprime hg
  unfold derive
  rw [if_neg (by omega), if_neg (by omega)]
  simp only [he, hd, hi]
  exact ⟨_, rfl⟩

/-- A valid key fits its registers. -/
theorem KeyBank.Valid.get_lt {w : Nat} {k : KeyBank} (h : k.Valid w) (r : KeyReg) : k.get r < 2 ^ w := by
  have hn := h.n_lt
  have hp := h.p_ge
  have hq := h.q_ge
  have hpn : k.p ≤ k.n := by rw [h.n_eq]; exact Nat.le_mul_of_pos_right _ (by omega)
  have hqn : k.q ≤ k.n := by rw [h.n_eq]; exact Nat.le_mul_of_pos_left _ (by omega)
  have hphi : k.phi ≤ k.n := by rw [h.n_eq, h.phi_eq]; exact Nat.mul_le_mul (by omega) (by omega)
  have hd := h.d_lt
  have hdp : k.dp < k.p - 1 := by rw [h.dp_eq]; exact Nat.mod_lt _ (by omega)
  have hdq : k.dq < k.q - 1 := by rw [h.dq_eq]; exact Nat.mod_lt _ (by omega)
  have hqi := h.qinv_lt
  have he := h.e_lt
  cases r <;> simp only [KeyBank.get] <;> omega

theorem crtDecrypt_lt {w : Nat} {k : KeyBank} (h : k.Valid w) (c : Nat) : crtDecrypt k c < k.n := by
  have hp := h.p_ge
  have hq := h.q_ge
  rw [h.n_eq]
  exact crtCombine_lt _ _ (by omega) (modexp_lt _ _ (by omega))

end Sys2Proof.Machine
end

