-- ==== Sys2Proof/Laws/State.lean ====
section
/-! SUPPORT. One lemma per field of State for each of the model's own state updates, so that no proof
unfolds a record update, and the read of a register after each. -/

namespace Sys2Proof.Machine

/-! ## setReg -/

@[simp] theorem setReg_cfg (s : State) (r : Reg) (v : Nat) : (s.setReg r v).cfg = s.cfg := rfl
@[simp] theorem setReg_x (s : State) (r : Reg) (v : Nat) : (s.setReg r v).x = s.x.set r v := rfl
@[simp] theorem setReg_busy (s : State) (r : Reg) (v : Nat) : (s.setReg r v).busy = s.busy := rfl
@[simp] theorem setReg_done (s : State) (r : Reg) (v : Nat) : (s.setReg r v).done = s.done := rfl
@[simp] theorem setReg_err (s : State) (r : Reg) (v : Nat) : (s.setReg r v).err = s.err := rfl
@[simp] theorem setReg_keyValid (s : State) (r : Reg) (v : Nat) : (s.setReg r v).keyValid = s.keyValid := rfl
@[simp] theorem setReg_wign (s : State) (r : Reg) (v : Nat) : (s.setReg r v).wign = s.wign := rfl
@[simp] theorem setReg_errcode (s : State) (r : Reg) (v : Nat) : (s.setReg r v).errcode = s.errcode := rfl
@[simp] theorem setReg_ctrl (s : State) (r : Reg) (v : Nat) : (s.setReg r v).ctrl = s.ctrl := rfl
@[simp] theorem setReg_configBitlen (s : State) (r : Reg) (v : Nat) : (s.setReg r v).configBitlen = s.configBitlen := rfl
@[simp] theorem setReg_key (s : State) (r : Reg) (v : Nat) : (s.setReg r v).key = s.key := rfl
@[simp] theorem setReg_pending (s : State) (r : Reg) (v : Nat) : (s.setReg r v).pending = s.pending := rfl
@[simp] theorem setReg_rngPos (s : State) (r : Reg) (v : Nat) : (s.setReg r v).rngPos = s.rngPos := rfl
@[simp] theorem setReg_events (s : State) (r : Reg) (v : Nat) : (s.setReg r v).events = s.events := rfl
@[simp] theorem setReg_reply (s : State) (r : Reg) (v : Nat) : (s.setReg r v).reply = s.reply := rfl
@[simp] theorem setReg_drawPos (s : State) (r : Reg) (v : Nat) : (s.setReg r v).drawPos = s.drawPos := rfl

/-! ## retire -/

@[simp] theorem retire_cfg (s : State) : (retire s).cfg = s.cfg := rfl
@[simp] theorem retire_x (s : State) : (retire s).x = s.x := rfl
@[simp] theorem retire_busy (s : State) : (retire s).busy = false := rfl
@[simp] theorem retire_done (s : State) : (retire s).done = true := rfl
@[simp] theorem retire_err (s : State) : (retire s).err = s.err := rfl
@[simp] theorem retire_keyValid (s : State) : (retire s).keyValid = s.keyValid := rfl
@[simp] theorem retire_wign (s : State) : (retire s).wign = s.wign := rfl
@[simp] theorem retire_errcode (s : State) : (retire s).errcode = s.errcode := rfl
@[simp] theorem retire_ctrl (s : State) : (retire s).ctrl = s.ctrl := rfl
@[simp] theorem retire_configBitlen (s : State) : (retire s).configBitlen = s.configBitlen := rfl
@[simp] theorem retire_key (s : State) : (retire s).key = s.key := rfl
@[simp] theorem retire_pending (s : State) : (retire s).pending = none := rfl
@[simp] theorem retire_rngPos (s : State) : (retire s).rngPos = s.rngPos := rfl
@[simp] theorem retire_events (s : State) : (retire s).events = s.events := rfl
@[simp] theorem retire_reply (s : State) : (retire s).reply = s.reply := rfl
@[simp] theorem retire_drawPos (s : State) : (retire s).drawPos = s.drawPos := rfl

/-! ## raiseError -/

@[simp] theorem raiseError_cfg (c : ErrorCode) (s : State) : (raiseError c s).cfg = s.cfg := rfl
@[simp] theorem raiseError_x (c : ErrorCode) (s : State) : (raiseError c s).x = s.x := rfl
@[simp] theorem raiseError_busy (c : ErrorCode) (s : State) : (raiseError c s).busy = false := rfl
@[simp] theorem raiseError_done (c : ErrorCode) (s : State) : (raiseError c s).done = true := rfl
@[simp] theorem raiseError_err (c : ErrorCode) (s : State) : (raiseError c s).err = true := rfl
@[simp] theorem raiseError_keyValid (c : ErrorCode) (s : State) : (raiseError c s).keyValid = s.keyValid := rfl
@[simp] theorem raiseError_wign (c : ErrorCode) (s : State) : (raiseError c s).wign = s.wign := rfl
@[simp] theorem raiseError_errcode (c : ErrorCode) (s : State) : (raiseError c s).errcode = c.code := rfl
@[simp] theorem raiseError_ctrl (c : ErrorCode) (s : State) : (raiseError c s).ctrl = s.ctrl := rfl
@[simp] theorem raiseError_configBitlen (c : ErrorCode) (s : State) : (raiseError c s).configBitlen = s.configBitlen := rfl
@[simp] theorem raiseError_key (c : ErrorCode) (s : State) : (raiseError c s).key = s.key := rfl
@[simp] theorem raiseError_pending (c : ErrorCode) (s : State) : (raiseError c s).pending = none := rfl
@[simp] theorem raiseError_rngPos (c : ErrorCode) (s : State) : (raiseError c s).rngPos = s.rngPos := rfl
@[simp] theorem raiseError_events (c : ErrorCode) (s : State) : (raiseError c s).events = s.events := rfl
@[simp] theorem raiseError_reply (c : ErrorCode) (s : State) : (raiseError c s).reply = s.reply := rfl
@[simp] theorem raiseError_drawPos (c : ErrorCode) (s : State) : (raiseError c s).drawPos = s.drawPos := rfl

/-! ## accept -/

@[simp] theorem accept_cfg (w : Word) (s : State) : (accept w s).cfg = s.cfg := rfl
@[simp] theorem accept_x (w : Word) (s : State) : (accept w s).x = s.x := rfl
@[simp] theorem accept_busy (w : Word) (s : State) : (accept w s).busy = true := rfl
@[simp] theorem accept_done (w : Word) (s : State) : (accept w s).done = false := rfl
@[simp] theorem accept_err (w : Word) (s : State) : (accept w s).err = false := rfl
@[simp] theorem accept_keyValid (w : Word) (s : State) : (accept w s).keyValid = s.keyValid := rfl
@[simp] theorem accept_wign (w : Word) (s : State) : (accept w s).wign = false := rfl
@[simp] theorem accept_errcode (w : Word) (s : State) : (accept w s).errcode = 0 := rfl
@[simp] theorem accept_ctrl (w : Word) (s : State) : (accept w s).ctrl = w := rfl
@[simp] theorem accept_configBitlen (w : Word) (s : State) : (accept w s).configBitlen = s.configBitlen := rfl
@[simp] theorem accept_key (w : Word) (s : State) : (accept w s).key = s.key := rfl
@[simp] theorem accept_pending (w : Word) (s : State) : (accept w s).pending = some w := rfl
@[simp] theorem accept_rngPos (w : Word) (s : State) : (accept w s).rngPos = s.rngPos := rfl
@[simp] theorem accept_events (w : Word) (s : State) : (accept w s).events = s.events := rfl
@[simp] theorem accept_reply (w : Word) (s : State) : (accept w s).reply = s.reply := rfl
@[simp] theorem accept_drawPos (w : Word) (s : State) : (accept w s).drawPos = s.drawPos := rfl

/-! ## tookWords -/

@[simp] theorem tookWords_cfg (pos : Nat) (s : State) : (tookWords pos s).cfg = s.cfg := rfl
@[simp] theorem tookWords_x (pos : Nat) (s : State) : (tookWords pos s).x = s.x := rfl
@[simp] theorem tookWords_busy (pos : Nat) (s : State) : (tookWords pos s).busy = s.busy := rfl
@[simp] theorem tookWords_done (pos : Nat) (s : State) : (tookWords pos s).done = s.done := rfl
@[simp] theorem tookWords_err (pos : Nat) (s : State) : (tookWords pos s).err = s.err := rfl
@[simp] theorem tookWords_keyValid (pos : Nat) (s : State) : (tookWords pos s).keyValid = s.keyValid := rfl
@[simp] theorem tookWords_wign (pos : Nat) (s : State) : (tookWords pos s).wign = s.wign := rfl
@[simp] theorem tookWords_errcode (pos : Nat) (s : State) : (tookWords pos s).errcode = s.errcode := rfl
@[simp] theorem tookWords_ctrl (pos : Nat) (s : State) : (tookWords pos s).ctrl = s.ctrl := rfl
@[simp] theorem tookWords_configBitlen (pos : Nat) (s : State) : (tookWords pos s).configBitlen = s.configBitlen := rfl
@[simp] theorem tookWords_key (pos : Nat) (s : State) : (tookWords pos s).key = s.key := rfl
@[simp] theorem tookWords_pending (pos : Nat) (s : State) : (tookWords pos s).pending = s.pending := rfl
@[simp] theorem tookWords_rngPos (pos : Nat) (s : State) : (tookWords pos s).rngPos = pos := rfl
@[simp] theorem tookWords_events (pos : Nat) (s : State) : (tookWords pos s).events = s.events := rfl
@[simp] theorem tookWords_reply (pos : Nat) (s : State) : (tookWords pos s).reply = s.reply := rfl
@[simp] theorem tookWords_drawPos (pos : Nat) (s : State) : (tookWords pos s).drawPos = s.drawPos := rfl

/-! ## install -/

@[simp] theorem install_cfg (k : KeyBank) (s : State) : (install k s).cfg = s.cfg := rfl
@[simp] theorem install_x (k : KeyBank) (s : State) : (install k s).x = s.x := rfl
@[simp] theorem install_busy (k : KeyBank) (s : State) : (install k s).busy = s.busy := rfl
@[simp] theorem install_done (k : KeyBank) (s : State) : (install k s).done = s.done := rfl
@[simp] theorem install_err (k : KeyBank) (s : State) : (install k s).err = s.err := rfl
@[simp] theorem install_keyValid (k : KeyBank) (s : State) : (install k s).keyValid = true := rfl
@[simp] theorem install_wign (k : KeyBank) (s : State) : (install k s).wign = s.wign := rfl
@[simp] theorem install_errcode (k : KeyBank) (s : State) : (install k s).errcode = s.errcode := rfl
@[simp] theorem install_ctrl (k : KeyBank) (s : State) : (install k s).ctrl = s.ctrl := rfl
@[simp] theorem install_configBitlen (k : KeyBank) (s : State) : (install k s).configBitlen = s.configBitlen := rfl
@[simp] theorem install_key (k : KeyBank) (s : State) : (install k s).key = k := rfl
@[simp] theorem install_pending (k : KeyBank) (s : State) : (install k s).pending = s.pending := rfl
@[simp] theorem install_rngPos (k : KeyBank) (s : State) : (install k s).rngPos = s.rngPos := rfl
@[simp] theorem install_events (k : KeyBank) (s : State) : (install k s).events = s.events := rfl
@[simp] theorem install_reply (k : KeyBank) (s : State) : (install k s).reply = s.reply := rfl
@[simp] theorem install_drawPos (k : KeyBank) (s : State) : (install k s).drawPos = s.drawPos := rfl

/-! ## answer -/

@[simp] theorem answer_cfg (r : BusReply) (s : State) : (answer r s).cfg = s.cfg := rfl
@[simp] theorem answer_x (r : BusReply) (s : State) : (answer r s).x = s.x := rfl
@[simp] theorem answer_busy (r : BusReply) (s : State) : (answer r s).busy = s.busy := rfl
@[simp] theorem answer_done (r : BusReply) (s : State) : (answer r s).done = s.done := rfl
@[simp] theorem answer_err (r : BusReply) (s : State) : (answer r s).err = s.err := rfl
@[simp] theorem answer_keyValid (r : BusReply) (s : State) : (answer r s).keyValid = s.keyValid := rfl
@[simp] theorem answer_wign (r : BusReply) (s : State) : (answer r s).wign = s.wign := rfl
@[simp] theorem answer_errcode (r : BusReply) (s : State) : (answer r s).errcode = s.errcode := rfl
@[simp] theorem answer_ctrl (r : BusReply) (s : State) : (answer r s).ctrl = s.ctrl := rfl
@[simp] theorem answer_configBitlen (r : BusReply) (s : State) : (answer r s).configBitlen = s.configBitlen := rfl
@[simp] theorem answer_key (r : BusReply) (s : State) : (answer r s).key = s.key := rfl
@[simp] theorem answer_pending (r : BusReply) (s : State) : (answer r s).pending = s.pending := rfl
@[simp] theorem answer_rngPos (r : BusReply) (s : State) : (answer r s).rngPos = s.rngPos := rfl
@[simp] theorem answer_events (r : BusReply) (s : State) : (answer r s).events = s.events := rfl
@[simp] theorem answer_reply (r : BusReply) (s : State) : (answer r s).reply = some r := rfl
@[simp] theorem answer_drawPos (r : BusReply) (s : State) : (answer r s).drawPos = s.drawPos := rfl

/-! ## applyReset -/

@[simp] theorem applyReset_cfg (s : State) : (applyReset s).cfg = s.cfg := rfl
@[simp] theorem applyReset_x (s : State) : (applyReset s).x = Vector.replicate 8 0 := rfl
@[simp] theorem applyReset_busy (s : State) : (applyReset s).busy = false := rfl
@[simp] theorem applyReset_done (s : State) : (applyReset s).done = false := rfl
@[simp] theorem applyReset_err (s : State) : (applyReset s).err = false := rfl
@[simp] theorem applyReset_keyValid (s : State) : (applyReset s).keyValid = false := rfl
@[simp] theorem applyReset_wign (s : State) : (applyReset s).wign = false := rfl
@[simp] theorem applyReset_errcode (s : State) : (applyReset s).errcode = 0 := rfl
@[simp] theorem applyReset_ctrl (s : State) : (applyReset s).ctrl = 0 := rfl
@[simp] theorem applyReset_configBitlen (s : State) : (applyReset s).configBitlen = resetBitlen s.cfg := rfl
@[simp] theorem applyReset_key (s : State) : (applyReset s).key = KeyBank.zero := rfl
@[simp] theorem applyReset_pending (s : State) : (applyReset s).pending = none := rfl
@[simp] theorem applyReset_rngPos (s : State) : (applyReset s).rngPos = rngPosAfterReset s := rfl
@[simp] theorem applyReset_events (s : State) : (applyReset s).events = s.events := rfl
@[simp] theorem applyReset_reply (s : State) : (applyReset s).reply = s.reply := rfl
@[simp] theorem applyReset_drawPos (s : State) : (applyReset s).drawPos = if s.busy then s.drawPos + 1 else s.drawPos := rfl

/-! ## Reading a register after an update -/

theorem reg_setReg (s : State) (r q : Reg) (v : Nat) : (s.setReg r v).reg q = if r = q then v else s.reg q := by
  simp [State.reg, State.setReg, Vector.getElem_set, Fin.ext_iff]

@[simp] theorem reg_setReg_self (s : State) (r : Reg) (v : Nat) : (s.setReg r v).reg r = v := by
  simp [reg_setReg]

theorem reg_setReg_ne (s : State) {r q : Reg} (v : Nat) (h : r ≠ q) : (s.setReg r v).reg q = s.reg q := by
  simp [reg_setReg, h]

@[simp] theorem reg_retire (s : State) (q : Reg) : (retire s).reg q = s.reg q := rfl
@[simp] theorem reg_raiseError (c : ErrorCode) (s : State) (q : Reg) : (raiseError c s).reg q = s.reg q := rfl
@[simp] theorem reg_accept (w : Word) (s : State) (q : Reg) : (accept w s).reg q = s.reg q := rfl
@[simp] theorem reg_tookWords (pos : Nat) (s : State) (q : Reg) : (tookWords pos s).reg q = s.reg q := rfl
@[simp] theorem reg_install (k : KeyBank) (s : State) (q : Reg) : (install k s).reg q = s.reg q := rfl
@[simp] theorem reg_answer (r : BusReply) (s : State) (q : Reg) : (answer r s).reg q = s.reg q := rfl

@[simp] theorem reg_applyReset (s : State) (q : Reg) : (applyReset s).reg q = 0 := by
  simp [State.reg]

@[simp] theorem reg_powerOn (c : Config) (q : Reg) : (State.powerOn c).reg q = 0 := by
  simp [State.reg, State.powerOn]

/-! ## The two ends of a command -/

@[simp] theorem concluded_ok (s t : State) : concluded s (.ok t) = retire t := rfl

@[simp] theorem concluded_error (s : State) (c : ErrorCode) : concluded s (.error c) = raiseError c s := rfl

theorem conclude_eq (s : State) (o : Except ErrorCode State) : conclude s o = .next (concluded s o) := rfl

@[simp] theorem code_ne_zero (c : ErrorCode) : c.code ≠ 0#8 := by cases c <;> decide

theorem code_le (c : ErrorCode) : c.code.toNat ≤ 11 := by cases c <;> decide

/-- The codes of R241 are distinct. -/
theorem code_injective {c d : ErrorCode} (h : c.code = d.code) : c = d := by
  cases c <;> cases d <;> first | rfl | exact absurd h (by decide)

@[simp] theorem keyBank_zero_get (k : KeyReg) : KeyBank.zero.get k = 0 := by cases k <;> rfl

end Sys2Proof.Machine
end

