-- ==== Sys2Proof/Laws/Exec.lean ====
section
/-! SUPPORT. Everything an instruction can do, once. -/

namespace Sys2Proof.Machine

/-! ## Everything a command can do -/

theorem mrRoundNat_lt (b : Bool) {w : Nat} (hw : 64 ≤ w) : b.toNat < 2 ^ w := by
  have : 2 ^ 64 ≤ 2 ^ w := Nat.pow_le_pow_right (by omega) hw
  have := b.toNat_lt
  omega

/-- Everything an instruction can do. It completes (R280) from the state with its random words taken, and
either ends with an error, or writes nothing, or writes one operand register, or installs a key. -/
theorem exec_cases (i : Instr) (s : State) : ∃ pos, s.rngPos ≤ pos ∧
    ((∃ c, exec i s = .next (raiseError c (tookWords pos s)))
    ∨ (exec i s = .next (retire (tookWords pos s)))
    ∨ (∃ rd v, exec i s = .next (retire ((tookWords pos s).setReg rd v)) ∧ (s.Inv → v < 2 ^ s.cfg.width))
    ∨ (∃ k p q, s.keyValid = false ∧ derive s.cfg p q = .ok k
        ∧ exec i s = .next (retire (install k (tookWords pos s))))) := by
  have self : tookWords s.rngPos s = s := rfl
  cases i with
  | nop => exact ⟨s.rngPos, le_rfl, .inr (.inl rfl)⟩
  | modmul rd a b n =>
    refine ⟨s.rngPos, le_rfl, ?_⟩
    simp only [exec, execModmul, conclude_eq, self]
    split
    · exact .inl ⟨_, rfl⟩
    · exact .inr (.inr (.inl ⟨_, _, rfl, fun h => (Nat.mod_lt _ (by omega)).trans (h.reg_lt n)⟩))
  | montmul rd a b n =>
    refine ⟨s.rngPos, le_rfl, ?_⟩
    simp only [exec, execMontmul, conclude_eq, self]
    split
    · exact .inl ⟨_, rfl⟩
    · split
      · exact .inl ⟨_, rfl⟩
      · exact .inr (.inr (.inl ⟨_, _, rfl, fun h => (montmul_lt _ _ (by omega)).trans (h.reg_lt n)⟩))
  | modexp rd b x m =>
    refine ⟨s.rngPos, le_rfl, ?_⟩
    simp only [exec, execModexp, conclude_eq, self]
    split
    · exact .inl ⟨_, rfl⟩
    · exact .inr (.inr (.inl ⟨_, _, rfl, fun h => (modexp_lt _ _ (by omega)).trans (h.reg_lt m)⟩))
  | crtRecombine rd mp mq p q qi =>
    refine ⟨s.rngPos, le_rfl, ?_⟩
    simp only [exec, execCrtRecombine, conclude_eq, self]
    split
    · exact .inl ⟨_, rfl⟩
    · split
      · exact .inl ⟨_, rfl⟩
      · exact .inr (.inr (.inl ⟨_, _, rfl, fun _ => by omega⟩))
  | mrRound rd n a =>
    refine ⟨s.rngPos, le_rfl, ?_⟩
    simp only [exec, execMrRound, conclude_eq, self]
    split
    · exact .inl ⟨_, rfl⟩
    · split
      · exact .inl ⟨_, rfl⟩
      · exact .inr (.inr (.inl ⟨_, _, rfl, fun h =>
          mrRoundNat_lt _ ((Config.legal_iff _).1 h.config_legal).2.1⟩))
  | mrTest rd n =>
    exact ⟨_, mrTest_pos_le s.cfg.stream (s.reg n) s.rngPos, .inr (.inr (.inl ⟨rd, _, rfl, fun h =>
      mrRoundNat_lt _ ((Config.legal_iff _).1 h.config_legal).2.1⟩))⟩
  | primegen rd =>
    simp only [exec, execPrimegen]
    split
    · next hb =>
      simp only [bitlenLegal, Bool.and_eq_true, decide_eq_true_eq] at hb
      refine ⟨_, primegen_pos_le s.cfg (l := s.configBitlen.toNat) (by omega) s.rngPos, ?_⟩
      simp only [conclude_eq]
      cases hg : (primegen s.cfg s.configBitlen.toNat s.rngPos).1 with
      | none => exact .inl ⟨_, rfl⟩
      | some c =>
        refine .inr (.inr (.inl ⟨_, _, rfl, fun _ => ?_⟩))
        have := (primegen_some (by omega) hg).2.1
        exact this.trans_le (Nat.pow_le_pow_right (by omega) (by omega))
    · exact ⟨s.rngPos, le_rfl, .inl ⟨_, rfl⟩⟩
  | keyderive p q =>
    refine ⟨s.rngPos, le_rfl, ?_⟩
    simp only [exec, execKeyderive, conclude_eq, self, deriveAndInstall]
    split
    · exact .inl ⟨_, rfl⟩
    · next hk =>
      cases hd : derive s.cfg (s.reg p) (s.reg q) with
      | error x => exact .inl ⟨_, rfl⟩
      | ok k => exact .inr (.inr (.inr ⟨k, _, _, by simpa using hk, hd, rfl⟩))
  | keygen =>
    simp only [exec, execKeygen]
    split
    · exact ⟨s.rngPos, le_rfl, .inl ⟨_, rfl⟩⟩
    · next hk =>
      split
      · next hb =>
        simp only [bitlenLegal, Bool.and_eq_true, decide_eq_true_eq] at hb
        refine ⟨_, (drawPrimes_spec s.cfg (l := s.configBitlen.toNat) (by omega) s.rngPos).1, ?_⟩
        simp only [conclude_eq]
        cases hg : (drawPrimes s.cfg s.configBitlen.toNat s.rngPos).1 with
        | none => exact .inl ⟨_, rfl⟩
        | some pq =>
          simp only [deriveAndInstall, tookWords_cfg]
          cases hd : derive s.cfg pq.1 pq.2 with
          | error x => exact .inl ⟨_, rfl⟩
          | ok k => exact .inr (.inr (.inr ⟨k, _, _, by simpa using hk, hd, rfl⟩))
      · exact ⟨s.rngPos, le_rfl, .inl ⟨_, rfl⟩⟩
  | encBlock rd m =>
    refine ⟨s.rngPos, le_rfl, ?_⟩
    simp only [exec, execEncBlock, conclude_eq, self]
    split
    · exact .inl ⟨_, rfl⟩
    · next hk =>
      split
      · exact .inl ⟨_, rfl⟩
      · refine .inr (.inr (.inl ⟨_, _, rfl, fun h => ?_⟩))
        have hv := h.key_valid (by simpa using hk)
        have hn : 1 < s.key.n := by rw [hv.n_eq]; nlinarith [hv.p_ge, hv.q_ge]
        exact (modexp_lt _ _ hn).trans hv.n_lt
  | decBlock rd c =>
    refine ⟨s.rngPos, le_rfl, ?_⟩
    simp only [exec, execDecBlock, conclude_eq, self]
    split
    · exact .inl ⟨_, rfl⟩
    · next hk =>
      split
      · exact .inl ⟨_, rfl⟩
      · refine .inr (.inr (.inl ⟨_, _, rfl, fun h => ?_⟩))
        have hv := h.key_valid (by simpa using hk)
        exact (crtDecrypt_lt hv _).trans hv.n_lt
end Sys2Proof.Machine
end

