-- ==== Sys2Proof/Laws/PerInstr.lean ====
section
/-! SUPPORT. Statements made instruction by instruction. -/

namespace Sys2Proof.Laws.WellFormedFields

/-- The fields of the instruction are well-formed: its opcode is assigned, and every field the opcode does
not use, and RSV, is 0 (R94, R95). -/
def Statement (i : Instr) : Prop := i.wellFormed = true

theorem nop : Statement .nop := rfl
theorem modmul (rd rs1 rs2 rs3 : Reg) : Statement (.modmul rd rs1 rs2 rs3) := rfl
theorem montmul (rd rs1 rs2 rs3 : Reg) : Statement (.montmul rd rs1 rs2 rs3) := rfl
theorem modexp (rd rs1 rs2 rs3 : Reg) : Statement (.modexp rd rs1 rs2 rs3) := rfl
theorem crtRecombine (rd rs1 rs2 rs3 rs4 rs5 : Reg) : Statement (.crtRecombine rd rs1 rs2 rs3 rs4 rs5) := rfl
theorem mrRound (rd rs1 rs2 : Reg) : Statement (.mrRound rd rs1 rs2) := rfl
theorem mrTest (rd rs1 : Reg) : Statement (.mrTest rd rs1) := rfl
theorem primegen (rd : Reg) : Statement (.primegen rd) := rfl
theorem keyderive (rs1 rs2 : Reg) : Statement (.keyderive rs1 rs2) := rfl
theorem keygen : Statement .keygen := rfl
theorem encBlock (rd rs1 : Reg) : Statement (.encBlock rd rs1) := rfl
theorem decBlock (rd rs1 : Reg) : Statement (.decBlock rd rs1) := rfl

end Sys2Proof.Laws.WellFormedFields
end

