-- ==== Sys2Proof/Laws/Window.lean ====
section
/-! SUPPORT. The words of a register slot (R61) and the locations of the window (R60), each operation once. -/

namespace Sys2Proof.Machine

theorem slotWord_toNat (w v j : Nat) : (slotWord w v j).toNat = v / 2 ^ wordShift w j % 2 ^ 32 := by
  simp [slotWord]

theorem setSlotWord_eq (w v j : Nat) (u : Word) :
    setSlotWord w v j u
      = (v / 2 ^ (wordShift w j + 32) * 2 ^ 32 + u.toNat) * 2 ^ wordShift w j + v % 2 ^ wordShift w j := by
  unfold setSlotWord
  generalize wordShift w j = s
  have h1 : v / 2 ^ s * 2 ^ s + v % 2 ^ s = v := Nat.div_add_mod' v (2 ^ s)
  have h2 : v / 2 ^ s / 2 ^ 32 * 2 ^ 32 + v / 2 ^ s % 2 ^ 32 = v / 2 ^ s := Nat.div_add_mod' _ _
  rw [pow_add, ← Nat.div_div_eq_div_mul]
  generalize v / 2 ^ s = a at *
  have : a * 2 ^ s = a / 2 ^ 32 * 2 ^ 32 * 2 ^ s + a % 2 ^ 32 * 2 ^ s := by rw [← Nat.add_mul, h2]
  rw [Nat.add_mul]
  omega

theorem wordShift_add {w j : Nat} (hw : w % 32 = 0) (hj : j < w / 32) : wordShift w j + 32 + 32 * j = w := by
  unfold wordShift; omega

theorem setSlotWord_lt {w v j : Nat} (u : Word) (hw : w % 32 = 0) (hj : j < w / 32) (hv : v < 2 ^ w) :
    setSlotWord w v j u < 2 ^ w := by
  rw [setSlotWord_eq]
  have hs := wordShift_add hw hj
  generalize wordShift w j = s at *
  have hlo : v % 2 ^ s < 2 ^ s := Nat.mod_lt _ (by positivity)
  have hhi : v / 2 ^ (s + 32) < 2 ^ (32 * j) := by
    rw [Nat.div_lt_iff_lt_mul (by positivity), ← pow_add]; convert hv using 2; omega
  have hu := u.isLt
  have e : 2 ^ w = 2 ^ (32 * j) * 2 ^ 32 * 2 ^ s := by rw [← pow_add, ← pow_add]; congr 1; omega
  rw [e]
  generalize 2 ^ (32 * j) = a at *
  generalize v / 2 ^ (s + 32) = b at *
  have h1 : b * 2 ^ 32 + u.toNat + 1 ≤ a * 2 ^ 32 := by omega
  calc _ < (b * 2 ^ 32 + u.toNat) * 2 ^ s + 2 ^ s := by omega
    _ = (b * 2 ^ 32 + u.toNat + 1) * 2 ^ s := by ring
    _ ≤ _ := Nat.mul_le_mul_right _ h1

theorem slotWord_setSlotWord_self (w v j : Nat) (u : Word) : slotWord w (setSlotWord w v j u) j = u := by
  apply BitVec.eq_of_toNat_eq
  rw [slotWord_toNat, setSlotWord_eq, Nat.mul_comm _ (2 ^ wordShift w j), Nat.mul_add_div (by positivity),
    Nat.div_eq_of_lt (Nat.mod_lt _ (by positivity)), Nat.add_zero, Nat.mul_comm, Nat.mul_add_mod]
  exact Nat.mod_eq_of_lt u.isLt

theorem slotWord_setSlotWord_ne {w j i : Nat} (v : Nat) (u : Word) (hw : w % 32 = 0) (hj : j < w / 32)
    (hi : i < w / 32) (h : i ≠ j) : slotWord w (setSlotWord w v j u) i = slotWord w v i := by
  apply BitVec.eq_of_toNat_eq
  rw [slotWord_toNat, slotWord_toNat, setSlotWord_eq]
  have h1 := wordShift_add hw hj
  have h2 := wordShift_add hw hi
  generalize wordShift w j = s at *
  generalize wordShift w i = r at *
  rcases Nat.lt_or_ge i j with hij | hij
  · obtain ⟨k, rfl⟩ : ∃ k, r = s + 32 + k := ⟨r - s - 32, by omega⟩
    congr 1
    have e : ∀ a, a / 2 ^ (s + 32 + k) = a / 2 ^ s / 2 ^ 32 / 2 ^ k := fun a => by
      rw [pow_add, pow_add, Nat.div_div_eq_div_mul, Nat.div_div_eq_div_mul, mul_assoc]
    rw [e, e, pow_add, ← Nat.div_div_eq_div_mul]
    rw [Nat.mul_comm _ (2 ^ s), Nat.mul_add_div (by positivity), Nat.div_eq_of_lt (Nat.mod_lt _ (by positivity)),
      Nat.add_zero, Nat.mul_comm _ (2 ^ 32), Nat.mul_add_div (by positivity), Nat.div_eq_of_lt u.isLt, Nat.add_zero]
  · obtain ⟨k, rfl⟩ : ∃ k, s = r + 32 + k := ⟨s - r - 32, by omega⟩
    have e : ∀ a, (a * 2 ^ (r + 32 + k) + v % 2 ^ (r + 32 + k)) / 2 ^ r % 2 ^ 32 = v % 2 ^ (r + 32 + k) / 2 ^ r % 2 ^ 32 := by
      intro a
      have : a * 2 ^ (r + 32 + k) = 2 ^ r * (2 ^ 32 * (2 ^ k * a)) := by rw [pow_add, pow_add]; ring
      rw [this, Nat.mul_add_div (by positivity), Nat.mul_add_mod]
    rw [e]
    rw [← e (v / 2 ^ (r + 32 + k)), Nat.div_add_mod']

theorem sum_slotWords {w v : Nat} (hw : w % 32 = 0) (hv : v < 2 ^ w) :
    ∑ j ∈ Finset.range (w / 32), (slotWord w v j).toNat * 2 ^ wordShift w j = v := by
  have key : ∀ k, k ≤ w / 32 →
      ∑ j ∈ Finset.range k, (slotWord w v j).toNat * 2 ^ wordShift w j = v / 2 ^ (w - 32 * k) * 2 ^ (w - 32 * k) := by
    intro k
    induction k with
    | zero => intro _; simp [Nat.div_eq_of_lt hv]
    | succ k ih =>
      intro hk
      rw [Finset.sum_range_succ, ih (by omega), slotWord_toNat]
      have e1 : wordShift w k = w - 32 * (k + 1) := by unfold wordShift; omega
      have e2 : w - 32 * k = w - 32 * (k + 1) + 32 := by omega
      rw [e1, e2]
      generalize w - 32 * (k + 1) = s
      have h2 : v / 2 ^ s / 2 ^ 32 * 2 ^ 32 + v / 2 ^ s % 2 ^ 32 = v / 2 ^ s := Nat.div_add_mod' _ _
      rw [pow_add, ← Nat.div_div_eq_div_mul]
      conv_rhs => rw [← h2]
      ring
  have := key (w / 32) le_rfl
  rw [this]
  have : w - 32 * (w / 32) = 0 := by omega
  simp [this]

/-! locations -/

/-- The location is one of a core with `ww` words a register -/
def Loc.ValidFor (ww : Nat) : Loc → Prop
  | .operand _ j => j < ww
  | .keyWord _ j => j < ww
  | _ => True

theorem locate_offset {ww : Nat} (hww : ww ≤ 256) (l : Loc) (hl : l.ValidFor ww) : locate ww l.offset = some l := by
  cases l with
  | operand r j =>
    have hj : j < ww := hl
    have hr := r.isLt
    have e1 : (0x1000 + 0x400 * r.val + 4 * j) % 0x400 / 4 = j := by omega
    have e2 : (0x1000 + 0x400 * r.val + 4 * j - 0x1000) / 0x400 = r.val := by omega
    have eo : (Loc.operand r j).offset = 0x1000 + 0x400 * r.val + 4 * j := rfl
    rw [eo]
    unfold locate
    rw [if_neg (by omega), e1, if_pos hj, if_pos (by omega), e2]
    simp
  | keyWord k j =>
    have hj : j < ww := hl
    have hk : k.index < 9 := by cases k <;> decide
    have e1 : (0x3000 + 0x400 * k.index + 4 * j) % 0x400 / 4 = j := by omega
    have e2 : (0x3000 + 0x400 * k.index + 4 * j - 0x3000) / 0x400 = k.index := by omega
    have eo : (Loc.keyWord k j).offset = 0x3000 + 0x400 * k.index + 4 * j := rfl
    rw [eo]
    unfold locate
    rw [if_neg (by omega), e1, if_pos hj, if_neg (by omega), e2]
    cases k <;> rfl
  | _ => rfl

theorem keyReg_ofIndex {n : Nat} {k : KeyReg} (h : KeyReg.ofIndex n = some k) : k.index = n := by
  unfold KeyReg.ofIndex at h
  split at h <;> cases h <;> rfl

theorem locate_some {ww off : Nat} {l : Loc} (ha : off % 4 = 0) (h : locate ww off = some l) :
    l.ValidFor ww ∧ (off < windowBytes → l.offset = off) := by
  unfold locate at h
  split at h
  · split at h <;> cases h <;> exact ⟨trivial, fun _ => rfl⟩
  · next h1 =>
    split at h
    · next h2 =>
      split at h
      · next h3 =>
        cases h
        refine ⟨h2, fun _ => ?_⟩
        simp only [Loc.offset, Fin.val_ofNat]
        omega
      · next h3 =>
        simp only [Option.map_eq_some_iff] at h
        obtain ⟨k, hk, rfl⟩ := h
        refine ⟨h2, fun _ => ?_⟩
        simp only [Loc.offset, keyReg_ofIndex hk]
        omega
    · cases h
end Sys2Proof.Machine
end

