-- ==== Sys2Proof/Laws/Step.lean ====
section
/-! SUPPORT. Everything a host access, the engine and a step can do, once. -/

namespace Sys2Proof.Machine

theorem Config.words_le {c : Config} (h : c.legal = true) : c.words ≤ 256 := by
  have := (Config.legal_iff c).1 h
  unfold Config.words; omega

theorem Loc.offset_lt {ww : Nat} (hww : ww ≤ 256) {l : Loc} (h : l.ValidFor ww) :
    l.offset < windowBytes ∧ l.offset % 4 = 0 := by
  cases l with
  | operand r j =>
    have hj : j < ww := h
    have := r.isLt
    simp only [Loc.offset, windowBytes]; omega
  | keyWord k j =>
    have hj : j < ww := h
    have hk : k.index < 9 := by cases k <;> decide
    simp only [Loc.offset, windowBytes]; omega
  | _ => decide

theorem windowOffset_base (c : Config) {off : Nat} (h : off < windowBytes) : windowOffset c (c.base + off) = some off := by
  unfold windowOffset; rw [if_pos (by omega)]; simp

theorem windowOffset_some {c : Config} {addr off : Nat} (h : windowOffset c addr = some off) :
    off < windowBytes ∧ addr = c.base + off := by
  unfold windowOffset at h
  split at h
  · cases h; omega
  · cases h

theorem locateAccess_offset {ww : Nat} (hww : ww ≤ 256) {l : Loc} (h : l.ValidFor ww) : locateAccess ww 32 l.offset = .ok l := by
  simp [locateAccess, (Loc.offset_lt hww h).2, locate_offset hww l h]

theorem locateAccess_ok {ww bits off : Nat} {l : Loc} (h : locateAccess ww bits off = .ok l) :
    bits = 32 ∧ off % 4 = 0 ∧ locate ww off = some l := by
  unfold locateAccess at h
  split at h
  · split at h
    · split at h
      · next hl => cases h; exact ⟨by assumption, by assumption, hl⟩
      · cases h
    · cases h
  · cases h

/-- A read of a location of the window. -/
theorem busAccess_read {s : State} {l : Loc} (hc : s.cfg.legal = true) (hl : l.ValidFor s.cfg.words) :
    busAccess (.read 32 (s.cfg.base + l.offset)) s = .next (readLoc l s) := by
  simp only [busAccess, windowOffset_base _ (Loc.offset_lt (Config.words_le hc) hl).1, serve,
    locateAccess_offset (Config.words_le hc) hl]

/-- A write of a location of the window. -/
theorem busAccess_write {s : State} {l : Loc} (v : Word) (hc : s.cfg.legal = true) (hl : l.ValidFor s.cfg.words) :
    busAccess (.write 32 (s.cfg.base + l.offset) v) s = .next (writeLoc l v s) := by
  simp only [busAccess, windowOffset_base _ (Loc.offset_lt (Config.words_le hc) hl).1, serve,
    locateAccess_offset (Config.words_le hc) hl]

/-- Everything a host access can do. -/
theorem busAccess_cases (a : Access) (s : State) :
    (windowOffset s.cfg a.addr = none ∧ busAccess a s = .refused .outsideWindow)
    ∨ (∃ f, busAccess a s = .next (answer (.busError f) s))
    ∨ (∃ l, l.ValidFor s.cfg.words ∧ busAccess a s = .next (readLoc l s))
    ∨ (∃ l v, l.ValidFor s.cfg.words ∧ busAccess a s = .next (writeLoc l v s)) := by
  cases a with
  | read bits addr =>
    simp only [busAccess, Access.addr]
    cases hw : windowOffset s.cfg addr with
    | none => exact .inl ⟨rfl, rfl⟩
    | some off =>
      simp only [serve]
      cases ha : locateAccess s.cfg.words bits off with
      | error f => exact .inr (.inl ⟨f, rfl⟩)
      | ok l =>
        obtain ⟨-, h4, hl⟩ := locateAccess_ok ha
        exact .inr (.inr (.inl ⟨l, (locate_some h4 hl).1, rfl⟩))
  | write bits addr v =>
    simp only [busAccess, Access.addr]
    cases hw : windowOffset s.cfg addr with
    | none => exact .inl ⟨rfl, rfl⟩
    | some off =>
      simp only [serve]
      cases ha : locateAccess s.cfg.words bits off with
      | error f => exact .inr (.inl ⟨f, rfl⟩)
      | ok l =>
        obtain ⟨-, h4, hl⟩ := locateAccess_ok ha
        exact .inr (.inr (.inr ⟨l, v, (locate_some h4 hl).1, rfl⟩))

/-- Everything the engine's turn can do: nothing, the accepted command, or E_BADCMD. -/
theorem engineTurn_cases (s : State) :
    ((s.busy = false ∨ s.pending = none) ∧ engineTurn s = .next s)
    ∨ (∃ w i, s.busy = true ∧ s.pending = some w ∧ decode w = .ok i ∧ engineTurn s = exec i s)
    ∨ (∃ w r, s.busy = true ∧ s.pending = some w ∧ decode w = .error r
        ∧ engineTurn s = .next (raiseError .badCmd s)) := by
  unfold engineTurn
  cases hb : s.busy with
  | false => exact .inl ⟨.inl rfl, rfl⟩
  | true =>
    cases hp : s.pending with
    | none => exact .inl ⟨.inr rfl, rfl⟩
    | some w =>
      simp only [completeWord]
      cases hd : decode w with
      | ok i => exact .inr (.inl ⟨w, i, trivial, rfl, hd, rfl⟩)
      | error r => exact .inr (.inr ⟨w, r, trivial, rfl, hd, rfl⟩)

/-! ## The step, event by event -/

theorem step_illegal {s : State} (h : s.cfg.legal = false) : step s = .refused .illegalConfiguration := by
  simp [step, h]

theorem step_idle {s : State} (h : s.cfg.legal = true) (he : s.events = []) : step s = engineTurn s := by
  simp [step, h, he]

theorem step_access {s : State} {a : Access} {rest : List Event} (h : s.cfg.legal = true)
    (he : s.events = .access a :: rest) : step s = busAccess a { s with events := rest } := by
  simp [step, h, he]

theorem step_complete {s : State} {rest : List Event} (h : s.cfg.legal = true)
    (he : s.events = .complete :: rest) : step s = engineTurn { s with events := rest } := by
  simp [step, h, he]

theorem step_reset {s : State} {rest : List Event} (h : s.cfg.legal = true)
    (he : s.events = .reset :: rest) : step s = .next (applyReset { s with events := rest }) := by
  simp [step, h, he]

/-- A completed word completes with a next state. -/
theorem exec_next (i : Instr) (s : State) : ∃ t, exec i s = .next t := by
  obtain ⟨pos, -, ⟨c, h⟩ | h | ⟨rd, v, h, -⟩ | ⟨k, p, q, -, -, h⟩⟩ := exec_cases i s
  all_goals exact ⟨_, h⟩

end Sys2Proof.Machine
end

