-- ==== Sys2Proof/Tests/Slice0.lean ====
section
/-! SUPPORT. Tests of one step each, with values from the rules' examples and from 95_test_vectors.md (which
the spec derives from its rules; W = 64 as there), and for every obligation with hypotheses a witness that
meets them. -/

namespace Sys2Proof.Tests

open Sys2Proof.Machine Sys2Proof.Claims

/-! ## Helpers -/

/-- The parameters of 95_test_vectors.md. -/
def cfg64 : Config := { Config.default with width := 64 }

/-- A W = 64 core after reset. -/
def core64 : State := State.powerOn cfg64

/-- That core with these operand registers. -/
def xs (v : Vector Nat 8) : State := { core64 with x := v }

/-- The key of KEYDERIVE p = 61, q = 53 (R147). -/
def key61 : KeyBank := ⟨61, 53, 3233, 3120, 65537, 2753, 53, 49, 20⟩

/-- A core with that key. -/
def keyed (v : Vector Nat 8) : State := { xs v with key := key61, keyValid := true }

/-- The named stream w_i = i, `n` words of it. -/
def counting (n : Nat) : List Word := (List.range n).map (BitVec.ofNat 32)

/-- A core with BITLEN = 8 whose stream is w_i = i, `pos` words taken, at most `trials` candidates. -/
def seeded (pos trials : Nat) : State :=
  { core64 with
    cfg := { cfg64 with namedWords := counting 421, trialBounds := [(8, trials)] }
    configBitlen := 8
    rngPos := pos }

/-- A core that has accepted `w`. -/
def busyWith (w : Word) (s : State) : State := accept w s

/-- With that access on its way. -/
def facing (a : Access) (s : State) : State := { s with events := [.access a] }

/-- The state a step gave. -/
def after (r : Result) : Option State :=
  match r with
  | .next t => some t
  | _ => none

/-- Register `r` after a step. -/
def regAfter (r : Reg) (o : Result) : Option Nat := (after o).map (·.reg r)

/-- ERRCODE and STATUS after a step. -/
def statusAfter (o : Result) : Option (Nat × Word) := (after o).map (fun t => (t.errcode.toNat, t.window .status))

/-- The answer of the core to the access. -/
def replyOf (a : Access) (s : State) : Option BusReply := (after (step (facing a s))).bind (·.reply)

/-! ## WellFormed: an ill-formed term for each check (R94, R96; words of 95 section 2.1) -/

theorem test_wf_modexp : (Fields.ofWord 0x000110C3).wellFormed = true := by decide
theorem test_wf_reserved_low : (Fields.ofWord 0x0000000C).wellFormed = false := by decide
theorem test_wf_reserved_high : (Fields.ofWord 0x0000003F).wellFormed = false := by decide
theorem test_wf_rsv : (Fields.ofWord 0x01000003).wellFormed = false := by decide
theorem test_wf_rd : (Fields.ofWord 0x00000048).wellFormed = false := by decide
theorem test_wf_rs1 : (Fields.ofWord 0x00000207).wellFormed = false := by decide
theorem test_wf_rs2 : (Fields.ofWord 0x00001046).wellFormed = false := by decide
theorem test_wf_rs3 : (Fields.ofWord 0x00008005).wellFormed = false := by decide
theorem test_wf_rs4 : (Fields.ofWord 0x000400C3).wellFormed = false := by decide
theorem test_wf_rs5 : (Fields.ofWord 0x00200003).wellFormed = false := by decide
theorem test_wf_rs5_used : (Fields.ofWord 0x00E00004).wellFormed = true := by decide

/-! ## Decoding: one word of every row, its fields written out in the order RSV RS5 RS4 RS3 RS2 RS1 RD OP
(R91, R95) -/

theorem test_decode_nop : decode 0b00000000000000000000000000000000 = .ok .nop := by decide
theorem test_decode_modmul : decode 0b00000000000000010001000011000001 = .ok (.modmul 3 0 1 2) := by decide
theorem test_decode_montmul : decode 0b00000000000000010001000100000010 = .ok (.montmul 4 0 1 2) := by decide
theorem test_decode_modexp : decode 0b00000000000000010001000011000011 = .ok (.modexp 3 0 1 2) := by decide
theorem test_decode_crtRecombine :
    decode 0b00000000100011010001000101000100 = .ok (.crtRecombine 5 0 1 2 3 4) := by decide
theorem test_decode_crtRecombine_rs5 :
    decode 0b00000000111000000000000000000100 = .ok (.crtRecombine 0 0 0 0 0 7) := by decide
theorem test_decode_mrRound : decode 0b00000000000000000001000010000101 = .ok (.mrRound 2 0 1) := by decide
theorem test_decode_mrTest : decode 0b00000000000000000000000001000110 = .ok (.mrTest 1 0) := by decide
theorem test_decode_primegen : decode 0b00000000000000000000000111000111 = .ok (.primegen 7) := by decide
theorem test_decode_keyderive : decode 0b00000000000000000001000000001000 = .ok (.keyderive 0 1) := by decide
theorem test_decode_keygen : decode 0b00000000000000000000000000001001 = .ok .keygen := by decide
theorem test_decode_encBlock : decode 0b00000000000000000000010011001010 = .ok (.encBlock 3 2) := by decide
theorem test_decode_decBlock : decode 0b00000000000000000000011100001011 = .ok (.decBlock 4 3) := by decide

/-- 95 section 2.1: the words that complete with E_BADCMD. -/
theorem test_decode_refused :
    [0x0000000C, 0x0000003F, 0xFFFFFFFF].map decode = List.replicate 3 (.error .reservedOpcode)
    ∧ [0x01000003, 0x01E00004, 0x000400C3, 0x00000040, 0x00000048, 0x00001048, 0x00000049, 0x00008005,
        0x00000207].map decode = List.replicate 9 (.error .malformed) := by decide

theorem test_encode : encode (.modexp 7 7 7 7) = 0x0003FFC3 ∧ encode (.crtRecombine 5 0 1 2 3 4) = 0x008D1144 := by
  decide

theorem test_decodeTableWord : decodeTableWord 32 0x1008 = some (.keyderive 0 1) ∧ decodeTableWord 32 0xC = none := by
  decide

/-- P4: the bits above `nbits` are dropped, the word is fetched and runs (MODEXP x5, x6, x7, x2). -/
theorem test_withFetchWord :
    regAfter 5 (step ((xs #v[4, 1, 497, 0, 0, 0, 2, 64]).withFetchWord 32 0x00017D43)) = some 436 := by decide

/-! ## One step of each command -/

/-- 95 section 2.3. -/
theorem test_nop :
    statusAfter (step { busyWith 0 { keyed #v[0, 0, 0, 0, 0, 0, 0, 0] with done := true, err := true, errcode := 4 } with
      events := [.complete] }) = some (0, 0x0000000A) := by decide

theorem test_nop_malformed : statusAfter (step (busyWith 0x00000040 core64)) = some (5, 0x00000006) := by decide

/-- 95 section 2.5. -/
theorem test_modmul :
    regAfter 3 (exec (.modmul 3 0 1 2) (xs #v[2 ^ 64 - 1, 2 ^ 64 - 1, 1000000007, 0, 0, 0, 0, 0])) = some 114944269 := by
  decide

theorem test_modmul_modulus :
    statusAfter (exec (.modmul 3 0 1 2) (xs #v[5, 5, 1, 0, 0, 0, 0, 0])) = some (6, 0x00000006) := by decide

/-- 95 section 2.4. -/
theorem test_montmul :
    regAfter 4 (exec (.montmul 4 0 1 2) (xs #v[3, 5, 4294967311, 0, 0, 0, 0, 0])) = some 4008636157 := by decide +kernel

theorem test_montmul_operand :
    statusAfter (exec (.montmul 4 0 1 2) (xs #v[2, 3, 3, 0, 0, 0, 0, 0])) = some (7, 0x00000006) := by decide

/-- S1, the example of the source. -/
theorem test_modexp : regAfter 3 (exec (.modexp 3 0 1 2) (xs #v[4, 13, 497, 0, 0, 0, 0, 0])) = some 445 := by decide

/-- 95 section 2.6, all operands in one register (95 section 2.3): 7^7 mod 7. -/
theorem test_modexp_overlap : regAfter 0 (exec (.modexp 0 0 0 0) (xs #v[7, 9, 9, 9, 9, 9, 9, 9])) = some 0 := by decide

/-- R220: mq < mp. -/
theorem test_crtRecombine :
    regAfter 5 (exec (.crtRecombine 5 0 1 2 3 4) (xs #v[60, 0, 61, 53, 20, 0, 0, 0])) = some 1219 := by decide

/-- 95 section 2.13. -/
theorem test_crtRecombine_overflow :
    statusAfter (exec (.crtRecombine 5 0 1 2 3 4) (xs #v[2 ^ 64 - 1, 0, 1, 2, 1, 0, 0, 0])) = some (11, 0x00000006) := by
  decide

/-- R141: a strong liar. -/
theorem test_mrRound : regAfter 2 (exec (.mrRound 2 0 1) (xs #v[2047, 2, 0, 0, 0, 0, 0, 0])) = some 1 := by decide

/-- R141: a witness. -/
theorem test_mrRound_witness : regAfter 2 (exec (.mrRound 2 0 1) (xs #v[561, 2, 7, 0, 0, 0, 0, 0])) = some 0 := by
  decide

/-- 95 section 2.8: n = 131 from RNGPOS 104. -/
theorem test_mrTest :
    (after (exec (.mrTest 1 0) { seeded 104 1 with x := #v[131, 0, 0, 0, 0, 0, 0, 0] })).map (fun t => (t.reg 1, t.rngPos))
      = some (1, 204) := by decide +kernel

/-- 95 section 2.8: n = 2047, base 3. -/
theorem test_mrTest_composite :
    (after (exec (.mrTest 1 0) { seeded 0 1 with x := #v[2047, 7, 0, 0, 0, 0, 0, 0] })).map (fun t => (t.reg 1, t.rngPos))
      = some (0, 2) := by decide +kernel

/-- R145's example. -/
theorem test_primegen :
    (after (exec (.primegen 0) (seeded 0 512))).map (fun t => (t.reg 0, t.rngPos)) = some (131, 104) := by
  decide +kernel

/-- 95 section 2.9: BITLEN = 33 at W = 64. -/
theorem test_primegen_config :
    statusAfter (exec (.primegen 0) { core64 with configBitlen := 33 }) = some (10, 0x00000006) := by decide

/-- 95 section 2.10: 65537 and 65538 are passed over. -/
theorem test_keyderive :
    (after (exec (.keyderive 0 1) (xs #v[917519, 11, 0, 0, 0, 0, 0, 0]))).map (·.key)
      = some ⟨917519, 11, 10092709, 9175180, 65539, 7241839, 819213, 9, 5⟩ := by decide +kernel

/-- 95 section 2.10: inv(4, 6) does not exist. -/
theorem test_keyderive_keygen :
    statusAfter (exec (.keyderive 0 1) (xs #v[4, 6, 0, 0, 0, 0, 0, 0])) = some (2, 0x00000006) := by decide +kernel

/-- P5: KEYGEN from RNGPOS 204. -/
theorem test_keygen :
    (after (exec .keygen (seeded 204 512))).map (fun t => (t.key, t.rngPos))
      = some (⟨211, 193, 40723, 40320, 65537, 5633, 173, 65, 118⟩, 421) := by decide +kernel

/-- 95 section 2.11: the installed key is checked before BITLEN. -/
theorem test_keygen_locked :
    statusAfter (exec .keygen { keyed #v[0, 0, 0, 0, 0, 0, 0, 0] with configBitlen := 7 }) = some (9, 0x0000000E) := by
  decide

/-- R210's example. -/
theorem test_encBlock : regAfter 3 (exec (.encBlock 3 2) (keyed #v[0, 0, 65, 0, 0, 0, 0, 0])) = some 2790 := by decide

theorem test_encBlock_too_large :
    statusAfter (exec (.encBlock 3 2) (keyed #v[0, 0, 3233, 0, 0, 0, 0, 0])) = some (3, 0x0000000E) := by decide

/-- 95 section 2.14: c divisible by p. -/
theorem test_decBlock : regAfter 4 (exec (.decBlock 4 3) (keyed #v[0, 0, 0, 61, 0, 0, 0, 0])) = some 2806 := by decide

/-- P3: no partial write. -/
theorem test_decBlock_error :
    (after (exec (.decBlock 4 3) (keyed #v[0, 0, 0, 3233, 65, 0, 0, 0]))).map (fun t => (t.reg 4, t.errcode.toNat))
      = some (65, 4) := by decide

/-! ## The register window (95 section 2.2) -/

theorem test_read_id : replyOf (.read 32 0x000) core64 = some (.data 0x52534131) := by decide
theorem test_read_param : replyOf (.read 32 0x004) core64 = some (.data 0x08320002) := by decide
theorem test_read_param_default : replyOf (.read 32 0x004) State.reset = some (.data 0x08320040) := by decide
theorem test_read_config_default : replyOf (.read 32 0x014) State.reset = some (.data 0x00000400) := by decide
theorem test_read_config : replyOf (.read 32 0x014) core64 = some (.data 0x00000020) := by decide
theorem test_write_config :
    (after (step (facing (.write 32 0x014 0xFFFF0008) core64))).map (·.window .config) = some 0x00000008 := by decide
theorem test_write_word0 :
    regAfter 0 (step (facing (.write 32 0x1000 0xDEADBEEF) (xs #v[1, 0, 0, 0, 0, 0, 0, 0]))) = some 0xDEADBEEF00000001 := by
  decide
theorem test_write_word1 : regAfter 0 (step (facing (.write 32 0x1004 0x000001BD) core64)) = some 445 := by decide
theorem test_read_qinv :
    replyOf (.read 32 0x5004) (keyed #v[0, 0, 0, 0, 0, 0, 0, 0]) = some (.data 0x00000014) := by decide
theorem test_read_e :
    replyOf (.read 32 0x4004) (keyed #v[0, 0, 0, 0, 0, 0, 0, 0]) = some (.data 0x00010001) := by decide
theorem test_bus_errors :
    replyOf (.read 32 0x1008) core64 = some (.busError .busErrorUnmapped)
    ∧ replyOf (.read 32 0x1002) core64 = some (.busError .busErrorMisaligned)
    ∧ replyOf (.read 8 0x1000) core64 = some (.busError .busErrorWidth)
    ∧ replyOf (.read 16 0x1000) core64 = some (.busError .busErrorWidth)
    ∧ replyOf (.read 32 0x018) core64 = some (.busError .busErrorUnmapped)
    ∧ replyOf (.read 32 0xFFC) core64 = some (.busError .busErrorUnmapped) := by decide
theorem test_write_read_only :
    after (step (facing (.write 32 0x3004 7) core64)) = some { core64 with reply := some .written } := by decide
theorem test_write_busy :
    (after (step (facing (.write 32 0x008 0) (busyWith 0x000110C3 core64)))).map (fun t => (t.wign, t.ctrl, t.pending))
      = some (true, 0x000110C3, some 0x000110C3) := by decide

/-! ## Reset and lifecycle -/

/-- 95 section 2.15. -/
theorem test_reset_event :
    (after (step { seeded 421 512 with
        x := #v[0, 0, 0, 445, 0, 0, 0, 0], key := key61, keyValid := true, done := true, events := [.reset] })).map
      (fun t => (t.reg 3, t.key, t.window .status, t.window .config, t.rngPos))
      = some (0, KeyBank.zero, 0, 32, 421) := by decide

/-- P6, the order "completion comes first": the word written, X0 = 5. -/
theorem test_idle_write_after_completion :
    regAfter 0 (step (facing (.write 32 0x1004 5) { xs #v[4, 13, 497, 445, 0, 0, 0, 0] with done := true })) = some 5 := by
  decide

/-- R185's count for S1: 4 squarings, 3 multiplications. -/
theorem test_modexp_count : modexpCounted 4 13 497 (bitlen 13) (1, 0, 0) = (445, 4, 3) := by decide

theorem test_asm : Instr.asm (.crtRecombine 5 0 1 2 3 4) = "CRT_RECOMBINE x5, x0, x1, x2, x3, x4" := by decide

/-! ## Witnesses: states and operands that meet the hypotheses of each obligation, clause by clause -/

/-- The hypotheses that an access at that offset is next for a core with legal parameters. -/
theorem facing_next (a : Access) (s : State) : nextAccess (facing a s) a [] := rfl

theorem core64_inv : core64.Inv :=
  { config_legal := by decide
    reg_lt := by decide
    key_lt := fun k => by cases k <;> decide
    pending_busy := by decide
    pending_ctrl := fun w h => by cases h
    done_not_busy := by decide
    err_done := by decide
    err_code := by decide
    code_legal := by decide
    key_empty := fun _ => by decide
    key_valid := fun h => by cases h }

theorem key61_valid : key61.Valid 64 :=
  ⟨by decide, by decide, by decide, by decide, by decide, by decide, by decide, by decide, by decide, by decide,
    by decide, by decide, by decide, by decide⟩

theorem cfg64_legal : cfg64.legal = true := by decide

/-- A keyed core with operands in range meets the invariant. -/
theorem keyed_inv (v : Vector Nat 8) (h : ∀ r : Fin 8, v[r] < 2 ^ 64) : (keyed v).Inv :=
  { config_legal := cfg64_legal
    reg_lt := h
    key_lt := fun k => key61_valid.get_lt k
    pending_busy := rfl
    pending_ctrl := fun w h => by cases h
    done_not_busy := fun h => by cases h.1
    err_done := fun h => by cases h
    err_code := ⟨fun h => (by cases h), fun h => absurd rfl h⟩
    code_legal := Nat.zero_le _
    key_empty := fun h => by cases h
    key_valid := fun _ => key61_valid }

theorem witness_DecodeOfEncodeIsTheInstruction : (Instr.crtRecombine 7 7 7 7 7 7).wellFormed = true := by decide

theorem witness_DecodedWordIsTheEncodingOfItsInstruction :
    decode 0x00FFFFC4 = .ok (.crtRecombine 7 7 7 7 7 7) := by decide

theorem witness_DecodeAcceptsExactlyTheWellFormedFields :
    (∃ i, decode 0x0000000B = .ok i) ∧ (Fields.ofWord 0x0000000B).wellFormed = true
    ∧ decode 0x0000000C = .error .reservedOpcode ∧ decode 0x0100000B = .error .malformed :=
  ⟨⟨.decBlock 0 0, by decide⟩, by decide, by decide, by decide⟩

theorem witness_ReservedOpcodeCompletesWithBadCommand :
    (∃ s : State, s.cfg.legal = true ∧ s.busy = false ∧ 0x0C ≤ (0x0000000C : Word).toNat % 64
      ∧ nextAccess s (.write 32 (s.cfg.base + 0x008) 0x0000000C) (.complete :: []))
    ∧ (∃ s : State, s.cfg.legal = true ∧ s.busy = false ∧ 0x0C ≤ (0xFFFFFFFF : Word).toNat % 64
      ∧ nextAccess s (.write 32 (s.cfg.base + 0x008) 0xFFFFFFFF) (.complete :: [])) :=
  ⟨⟨{ core64 with events := [.access (.write 32 8 0x0000000C), .complete] }, by decide, by decide, by decide, rfl⟩,
    ⟨{ core64 with events := [.access (.write 32 8 0xFFFFFFFF), .complete] }, by decide, by decide, by decide, rfl⟩⟩

theorem witness_ResetLeavesTheTabulatedState :
    (∃ s : State, s.cfg.legal = true ∧ s.events = .reset :: [] ∧ s.busy = false)
    ∧ (∃ s : State, s.cfg.legal = true ∧ s.events = .reset :: [] ∧ s.busy = true) :=
  ⟨⟨{ keyed #v[0, 0, 0, 445, 0, 0, 0, 0] with events := [.reset] }, by decide, rfl, rfl⟩,
    ⟨{ busyWith 7 core64 with events := [.reset] }, by decide, rfl, rfl⟩⟩

theorem witness_ResetStateMeetsTheInvariant :
    Config.default.legal = true ∧ cfg64.legal = true
    ∧ ({ Config.default with width := 8192, eLimit := 65538 } : Config).legal = true
    ∧ ({ Config.default with eLimit := 2 ^ 64 } : Config).legal = true := by decide

theorem witness_StepKeepsTheInvariant :
    ∃ s t : State, s.Inv ∧ step s = .next t ∧ t.keyValid = true ∧ t.reg 3 = 2790 :=
  ⟨busyWith 0x000004CA (keyed #v[0, 0, 65, 0, 0, 0, 0, 0]),
    retire ((busyWith 0x000004CA (keyed #v[0, 0, 65, 0, 0, 0, 0, 0])).setReg 3 2790),
    { keyed_inv #v[0, 0, 65, 0, 0, 0, 0, 0] (by decide) with
      pending_busy := rfl
      pending_ctrl := fun w h => by cases h; rfl
      done_not_busy := by decide
      err_done := fun h => by cases h }, by rfl, rfl, by decide⟩

theorem witness_AnswerableCoreNeverStops :
    State.answerable { busyWith 7 core64 with
      events := [.access (.read 32 0x53FC), .access (.write 8 0 0), .complete, .reset] } = true := by decide

theorem witness_IllegalConfigurationIsRefused :
    (({ cfg64 with width := 65 } : Config).width % 32 ≠ 0) ∧ ({ cfg64 with width := 32 } : Config).width < 64
    ∧ 8192 < ({ cfg64 with width := 8224 } : Config).width ∧ ({ cfg64 with eLimit := 65537 } : Config).eLimit ≤ 65537
    ∧ 2 ^ 64 < ({ cfg64 with eLimit := 2 ^ 64 + 1 } : Config).eLimit := by decide

theorem witness_ControlWriteAcceptsEveryWord :
    (∃ s : State, s.cfg.legal = true ∧ s.busy = false ∧ nextAccess s (.write 32 (s.cfg.base + 0x008) 0xFFFFFFFF) [])
    ∧ (∃ s : State, s.cfg.legal = true ∧ s.busy = true ∧ nextAccess s (.write 32 (s.cfg.base + 0x008) 0) []) :=
  ⟨⟨facing (.write 32 8 0xFFFFFFFF) core64, by decide, rfl, rfl⟩,
    ⟨facing (.write 32 8 0) (busyWith 0x000110C3 core64), by decide, rfl, rfl⟩⟩

theorem witness_StepRunsTheDecodedInstruction :
    (∃ s : State, s.cfg.legal = true ∧ s.busy = true ∧ s.pending = some 0x000110C3
      ∧ decode 0x000110C3 = .ok (.modexp 3 0 1 2) ∧ s.events = [])
    ∧ (∃ s : State, s.cfg.legal = true ∧ s.busy = true ∧ s.pending = some 0x000110C3
      ∧ decode 0x000110C3 = .ok (.modexp 3 0 1 2) ∧ s.events = .complete :: [.reset]) :=
  ⟨⟨busyWith 0x000110C3 core64, by decide, rfl, rfl, by decide, rfl⟩,
    ⟨{ busyWith 0x000110C3 core64 with events := [.complete, .reset] }, by decide, rfl, rfl, by decide, rfl⟩⟩

theorem witness_FetchedWordRunsNext : State.reset.cfg.legal = true := by decide

theorem witness_IdleCoreDoesNothing :
    (∃ s : State, s.cfg.legal = true ∧ s.busy = false ∧ s.events = [])
    ∧ (∃ s : State, s.cfg.legal = true ∧ s.busy = false ∧ s.events = .complete :: []) :=
  ⟨⟨State.reset, by decide, rfl, rfl⟩, ⟨{ core64 with events := [.complete] }, by decide, rfl, rfl⟩⟩

theorem witness_ErrorsArePrecise :
    ∃ (s t : State) (w : Word), s.busy = false ∧ s.pending = none ∧ completeWord w (accepted w s) = .next t
      ∧ t.err = true :=
  ⟨keyed #v[0, 0, 0, 3233, 65, 0, 0, 0], raiseError .decryption (accepted 0x0000070B (keyed #v[0, 0, 0, 3233, 65, 0, 0, 0])),
    0x0000070B, rfl, rfl, by rfl, rfl⟩

theorem witness_AcceptedCommandCompletesInBoundedSteps :
    ∃ s : State, s.answerable = true ∧ s.busy = true ∧ s.pending.isSome = true ∧ s.events.length = 2 :=
  ⟨{ busyWith 0x000110C3 core64 with events := [.access (.read 32 0x00C), .access (.write 32 0x008 0)] },
    by decide, rfl, rfl, rfl⟩

/-- Two cores that differ in a register MODEXP does not read, in CTRL, in WIGN and in RNGPOS. -/
theorem witness_OutcomeDependsOnInputsOnly :
    ∃ s s' : State, s ≠ s' ∧ s.cfg.width = s'.cfg.width ∧ s.cfg.eLimit = s'.cfg.eLimit
      ∧ s.cfg.trialBounds = s'.cfg.trialBounds ∧ (∀ r ∈ sources (.mrTest 1 0), s.reg r = s'.reg r) ∧ s.key = s'.key
      ∧ s.keyValid = s'.keyValid ∧ s.configBitlen = s'.configBitlen ∧ s.err = false ∧ s'.err = false
      ∧ s.errcode = 0 ∧ s'.errcode = 0
      ∧ (usesRandom (.mrTest 1 0) = true → ∀ t, exec (.mrTest 1 0) s = .next t →
          ∀ n, s.rngPos + n < t.rngPos → s.cfg.stream (s.rngPos + n) = s'.cfg.stream (s'.rngPos + n)) :=
  ⟨xs #v[4, 0, 0, 0, 0, 0, 0, 0], { xs #v[4, 0, 9, 0, 0, 0, 0, 0] with rngPos := 5, ctrl := 1, wign := true },
    by decide, rfl, rfl, rfl, by decide, rfl, rfl, rfl, rfl, rfl, rfl, rfl, fun _ t h n hn => by
      cases h; exact absurd hn (by simp [concluded, retire, State.setReg, tookWords, mrTest, State.reg, xs])⟩

/-- Each row at a core of its own: the offsets are distinct, so no value falls under two of them. -/
theorem witness_ControlRegisterReads :
    (∀ off ∈ [0x000, 0x004, 0x008, 0x00C, 0x010, 0x014],
      ∃ s : State, s.cfg.legal = true ∧ s.busy = true ∧ nextAccess s (.read 32 (s.cfg.base + off)) [])
    ∧ [0x000, 0x004, 0x008, 0x00C, 0x010, 0x014].Nodup :=
  ⟨fun off _ => ⟨facing (.read 32 (0 + off)) (busyWith 7 core64), cfg64_legal, rfl, rfl⟩, by decide⟩

theorem witness_SlotWordsOfAnIdleCore :
    (∃ s : State, s.cfg.legal = true ∧ s.busy = false ∧ 1 < s.cfg.width / 32
      ∧ nextAccess s (.read 32 (s.cfg.base + 0x1000 + 0x400 * (7 : Reg).val + 4 * 1)) [])
    ∧ (∃ s : State, s.cfg.legal = true ∧ s.busy = false ∧ 0 < s.cfg.width / 32
      ∧ nextAccess s (.read 32 (s.cfg.base + 0x3000 + 0x400 * KeyReg.qinv.index + 4 * 0)) [])
    ∧ (∃ s : State, s.cfg.legal = true ∧ s.busy = false ∧ 1 < s.cfg.width / 32
      ∧ nextAccess s (.write 32 (s.cfg.base + 0x1000 + 0x400 * (0 : Reg).val + 4 * 1) 445) [])
    ∧ (∃ s : State, s.cfg.legal = true ∧ s.busy = false ∧ s.cfg.width / 32 ≤ 2
      ∧ nextAccess s (.read 32 (s.cfg.base + 0x1000 + 0x400 * 0 + 4 * 2)) [])
    ∧ (∃ s : State, s.cfg.legal = true ∧ s.busy = false ∧ s.cfg.width / 32 ≤ 255
      ∧ nextAccess s (.read 32 (s.cfg.base + 0x1000 + 0x400 * 16 + 4 * 255)) []) :=
  ⟨⟨facing (.read 32 0x2C04) core64, by decide, rfl, by decide, rfl⟩,
    ⟨facing (.read 32 0x5000) core64, by decide, rfl, by decide, rfl⟩,
    ⟨facing (.write 32 0x1004 445) core64, by decide, rfl, by decide, rfl⟩,
    ⟨facing (.read 32 0x1008) core64, by decide, rfl, by decide, rfl⟩,
    ⟨facing (.read 32 0x53FC) core64, by decide, rfl, by decide, rfl⟩⟩

theorem witness_WrittenWordReadsBackAlone :
    ∃ s t : State, s.cfg.legal = true ∧ s.busy = false ∧ 1 < s.cfg.width / 32
      ∧ nextAccess s (.write 32 (s.cfg.base + 0x1000 + 0x400 * (7 : Reg).val + 4 * 1) 445) [] ∧ step s = .next t :=
  ⟨facing (.write 32 0x2C04 445) core64,
    { core64 with x := #v[0, 0, 0, 0, 0, 0, 0, 445], reply := some .written }, by decide, rfl, by decide, rfl, by rfl⟩

theorem witness_RegisterIsTheSumOfItsWords : core64.Inv ∧ (keyed #v[2 ^ 64 - 1, 0, 0, 0, 0, 0, 0, 0]).Inv :=
  ⟨core64_inv, keyed_inv _ (by decide)⟩

/-- Busy and idle, at each of the three kinds of location. -/
theorem witness_WritableLocationWrites :
    ∀ off ∈ [0x008, 0x014, 0x1000, 0x2C04],
      (off = 0x008 ∨ off = 0x014
        ∨ ∃ (r : Reg) (j : Nat), j < core64.cfg.width / 32 ∧ off = 0x1000 + 0x400 * r.val + 4 * j)
      ∧ (∃ s : State, s.cfg = core64.cfg ∧ s.cfg.legal = true ∧ s.busy = true
          ∧ nextAccess s (.write 32 (s.cfg.base + off) 1) [])
      ∧ (∃ s : State, s.cfg = core64.cfg ∧ s.cfg.legal = true ∧ s.busy = false
          ∧ nextAccess s (.write 32 (s.cfg.base + off) 1) []) := by
  intro off h
  refine ⟨?_, ⟨facing (.write 32 (0 + off) 1) (busyWith 7 core64), rfl, cfg64_legal, rfl, rfl⟩,
    ⟨facing (.write 32 (0 + off) 1) core64, rfl, cfg64_legal, rfl, rfl⟩⟩
  simp only [List.mem_cons, List.not_mem_nil, or_false] at h
  rcases h with rfl | rfl | rfl | rfl
  exacts [.inl rfl, .inr (.inl rfl), .inr (.inr ⟨0, 0, by decide, rfl⟩), .inr (.inr ⟨7, 1, by decide, rfl⟩)]

theorem witness_ReadOnlyLocationWritesAreIgnored :
    ∀ off ∈ [0x000, 0x004, 0x00C, 0x010, 0x3000, 0x5004],
      (off = 0x000 ∨ off = 0x004 ∨ off = 0x00C ∨ off = 0x010
        ∨ ∃ (k : KeyReg) (j : Nat), j < core64.cfg.width / 32 ∧ off = 0x3000 + 0x400 * k.index + 4 * j)
      ∧ (∃ s : State, s.cfg = core64.cfg ∧ s.cfg.legal = true ∧ s.busy = true
          ∧ nextAccess s (.write 32 (s.cfg.base + off) 5) []) := by
  intro off h
  refine ⟨?_, ⟨facing (.write 32 (0 + off) 5) (busyWith 7 core64), rfl, cfg64_legal, rfl, rfl⟩⟩
  simp only [List.mem_cons, List.not_mem_nil, or_false] at h
  rcases h with rfl | rfl | rfl | rfl | rfl | rfl
  exacts [.inl rfl, .inr (.inl rfl), .inr (.inr (.inl rfl)), .inr (.inr (.inr (.inl rfl))),
    .inr (.inr (.inr (.inr ⟨.p, 0, by decide, rfl⟩))), .inr (.inr (.inr (.inr ⟨.qinv, 1, by decide, rfl⟩)))]

/-- Offsets at the edges of each range, 8-bit and 32-bit accesses; every 32-bit offset falls under exactly one
clause. -/
theorem witness_BusErrorsChangeNothing :
    (∀ off ∈ [0x001, 0x018, 0xFFC, 0x1008, 0x53FC], off < 0x5400
      ∧ (off % 4 ≠ 0 ∨ (0x018 ≤ off ∧ off < 0x1000) ∨ (0x1000 ≤ off ∧ core64.cfg.width / 32 ≤ off % 0x400 / 4)))
    ∧ (∀ off ∈ [0x000, 0x014, 0x1000, 0x2C04, 0x3000, 0x5004], off < 0x5400 ∧ off % 4 = 0
      ∧ (off < 0x018 ∨ (0x1000 ≤ off ∧ off % 0x400 / 4 < core64.cfg.width / 32)))
    ∧ (∀ bits off, ∃ s : State, s.cfg = core64.cfg ∧ s.cfg.legal = true
      ∧ nextAccess s (.read bits (s.cfg.base + off)) []) :=
  ⟨by decide, by decide, fun bits off => ⟨facing (.read bits (0 + off)) core64, rfl, cfg64_legal, rfl⟩⟩

theorem witness_AddressOutsideTheWindowIsRefused :
    (∃ s : State, s.cfg.legal = true ∧ nextAccess s (.read 32 0x0FFC) [] ∧ 0x0FFC < s.cfg.base)
    ∧ (∃ s : State, s.cfg.legal = true ∧ nextAccess s (.write 32 0x6400 0) [] ∧ s.cfg.base + 0x5400 ≤ 0x6400) :=
  ⟨⟨facing (.read 32 0x0FFC) { core64 with cfg := { cfg64 with base := 0x1000 } }, by decide, rfl, by decide⟩,
    ⟨facing (.write 32 0x6400 0) { core64 with cfg := { cfg64 with base := 0x1000 } }, by decide, rfl, by decide⟩⟩

theorem witness_BusyDataReadsAnswerAFreeValue :
    (∃ s : State, s.cfg.legal = true ∧ s.busy = true ∧ 1 < s.cfg.width / 32
      ∧ nextAccess s (.read 32 (s.cfg.base + (0x1000 + 0x400 * (7 : Reg).val + 4 * 1))) [])
    ∧ (∃ s : State, s.cfg.legal = true ∧ s.busy = true ∧ 0 < s.cfg.width / 32
      ∧ nextAccess s (.read 32 (s.cfg.base + (0x3000 + 0x400 * KeyReg.p.index + 4 * 0))) []) :=
  ⟨⟨facing (.read 32 0x2C04) (busyWith 7 core64), by decide, rfl, by decide, rfl⟩,
    ⟨facing (.read 32 0x3000) (busyWith 7 core64), by decide, rfl, by decide, rfl⟩⟩

theorem witness_HostAccessNeverTouchesKeyOrStream :
    (∃ s t : State, nextAccess s (.read 32 0x000) [] ∧ step s = .next t)
    ∧ (∃ s t : State, nextAccess s (.write 32 0x3004 7) [] ∧ step s = .next t) :=
  ⟨⟨facing (.read 32 0x000) core64, { core64 with reply := some (.data 0x52534131) }, rfl, by rfl⟩,
    ⟨facing (.write 32 0x3004 7) core64, { core64 with reply := some .written }, rfl, by rfl⟩⟩

/-- The two clauses at N = 1 and N = 2. -/
theorem witness_ModmulGivesTheModularProduct :
    (xs #v[5, 5, 1, 0, 0, 0, 0, 0]).reg 2 < 2 ∧ 2 ≤ (xs #v[7, 8, 2, 0, 0, 0, 0, 0]).reg 2 := by decide

/-- N = 1, N even, a = N, b = N, and the largest operands. -/
theorem witness_MontmulGivesTheMontgomeryProduct :
    (xs #v[0, 0, 1, 0, 0, 0, 0, 0]).reg 2 < 2 ∧ (xs #v[1, 1, 498, 0, 0, 0, 0, 0]).reg 2 % 2 = 0
    ∧ (let s := xs #v[497, 1, 497, 0, 0, 0, 0, 0]; 2 ≤ s.reg 2 ∧ s.reg 2 % 2 = 1 ∧ s.reg 2 ≤ s.reg 0)
    ∧ (let s := xs #v[2, 3, 3, 0, 0, 0, 0, 0]; 2 ≤ s.reg 2 ∧ s.reg 2 % 2 = 1 ∧ s.reg 2 ≤ s.reg 1)
    ∧ (let s := xs #v[2 ^ 64 - 2, 2 ^ 64 - 2, 2 ^ 64 - 1, 0, 0, 0, 0, 0];
        2 ≤ s.reg 2 ∧ s.reg 2 % 2 = 1 ∧ s.reg 0 < s.reg 2 ∧ s.reg 1 < s.reg 2)
    ∧ (let s := xs #v[2, 2, 3, 0, 0, 0, 0, 0];
        2 ≤ s.reg 2 ∧ s.reg 2 % 2 = 1 ∧ s.reg 0 < s.reg 2 ∧ s.reg 1 < s.reg 2) := by decide

/-- N = 497: R mod N = 151, R^2 mod N = 436, and the MODEXP of P4 for it. -/
theorem witness_MontmulDomainIdentities :
    (let s := xs #v[4, 1, 497, 0, 0, 0, 2, 64]; 2 ≤ s.reg 2 ∧ s.reg 6 = 2 ∧ s.reg 7 = 2 * montBits (s.reg 2))
    ∧ (let s := xs #v[4, 436, 497, 0, 0, 0, 0, 0];
        2 ≤ s.reg 2 ∧ s.reg 2 % 2 = 1 ∧ s.reg 0 < s.reg 2 ∧ s.reg 1 < s.reg 2
          ∧ s.reg 1 = montRadix (s.reg 2) ^ 2 % s.reg 2)
    ∧ (let s := xs #v[151, 1, 497, 0, 0, 0, 0, 0];
        s.reg 0 < s.reg 2 ∧ s.reg 1 = 1 ∧ 1 < s.reg 2 ∧ s.reg 0 = 1 * montRadix (s.reg 2) % s.reg 2)
    ∧ (let s := xs #v[107, 151, 497, 0, 0, 0, 0, 0];
        s.reg 0 < s.reg 2 ∧ s.reg 0 = 4 * montRadix (s.reg 2) % s.reg 2
          ∧ s.reg 1 = 1 * montRadix (s.reg 2) % s.reg 2)
    ∧ (let s := xs #v[1, 436, 497, 0, 0, 0, 0, 0];
        s.reg 0 = 1 ∧ s.reg 1 < s.reg 2 ∧ s.reg 1 = montRadix (s.reg 2) ^ 2 % s.reg 2) := by decide

theorem witness_RedcComputesTheMontgomeryProduct :
    (1 < 3 ∧ 3 % 2 = 1 ∧ 2 < 3) ∧ (1 < 497 ∧ 497 % 2 = 1 ∧ 4 < 497 ∧ 13 < 497) ∧ redc 4 13 497 = 132 := by decide

theorem witness_ModexpGivesTheModularPower :
    (xs #v[5, 3, 1, 0, 0, 0, 0, 0]).reg 2 < 2 ∧ 2 ≤ (xs #v[3, 0, 2, 0, 0, 0, 0, 0]).reg 2 := by decide

/-- q = 1, the least overflow, and the greatest value that fits. -/
theorem witness_CrtRecombineGivesTheGarnerValue :
    (xs #v[1, 1, 3, 1, 1, 0, 0, 0]).reg 3 < 2
    ∧ (let s := xs #v[2 ^ 64 - 1, 0, 1, 2, 1, 0, 0, 0];
        2 ≤ s.reg 3 ∧ ((2 ^ s.cfg.width : Nat) : Int) ≤ garner (s.reg 0) (s.reg 1) (s.reg 2) (s.reg 3) (s.reg 4))
    ∧ (let s := xs #v[2 ^ 64 - 2, 1, 1, 2, 1, 0, 0, 0];
        2 ≤ s.reg 3 ∧ garner (s.reg 0) (s.reg 1) (s.reg 2) (s.reg 3) (s.reg 4) = ((2 ^ s.cfg.width : Nat) : Int) - 1) := by
  decide

theorem witness_CrtRecombineFindsTheUniqueResidue :
    let s := xs #v[60, 0, 61, 53, 20, 0, 0, 0]
    2 ≤ s.reg 3 ∧ s.reg 0 < s.reg 2 ∧ s.reg 1 < s.reg 3 ∧ s.reg 2 * s.reg 4 % s.reg 3 = 1
      ∧ s.reg 2 * s.reg 3 ≤ 2 ^ s.cfg.width := by decide

theorem strong_2047 : StrongProbablePrime 2047 2 := ⟨1, 1023, by decide, by decide, .inl (by decide +kernel)⟩

theorem not_strong_9 : ¬ StrongProbablePrime 9 2 := by
  rintro ⟨s, t, h, ht, hw⟩
  have ht8 : t ≤ 8 := by
    have : 1 * t ≤ 2 ^ s * t := Nat.mul_le_mul_right _ (Nat.one_le_two_pow)
    omega
  have hs : s < 4 := by
    by_contra hs
    have h16 : 2 ^ 4 ≤ 2 ^ s := Nat.pow_le_pow_right (by omega) (by omega)
    have : 2 ^ 4 * 1 ≤ 2 ^ s * t := Nat.mul_le_mul h16 (by omega)
    omega
  interval_cases s <;> interval_cases t <;> first | omega | (revert hw; decide)

/-- Each of the four refused operands at its edge, and both results at a = 2. -/
theorem witness_MrRoundTellsStrongProbablePrimes :
    (xs #v[4, 2, 0, 0, 0, 0, 0, 0]).reg 0 < 5 ∧ (xs #v[6, 2, 0, 0, 0, 0, 0, 0]).reg 0 % 2 = 0
    ∧ (xs #v[9, 1, 0, 0, 0, 0, 0, 0]).reg 1 < 2
    ∧ (let s := xs #v[9, 8, 0, 0, 0, 0, 0, 0]; s.reg 0 - 2 < s.reg 1)
    ∧ (let s := xs #v[2047, 2, 0, 0, 0, 0, 0, 0];
        5 ≤ s.reg 0 ∧ s.reg 0 % 2 = 1 ∧ 2 ≤ s.reg 1 ∧ s.reg 1 ≤ s.reg 0 - 2
          ∧ StrongProbablePrime (s.reg 0) (s.reg 1))
    ∧ (let s := xs #v[9, 2, 0, 0, 0, 0, 0, 0];
        5 ≤ s.reg 0 ∧ s.reg 0 % 2 = 1 ∧ 2 ≤ s.reg 1 ∧ s.reg 1 ≤ s.reg 0 - 2
          ∧ ¬ StrongProbablePrime (s.reg 0) (s.reg 1)) :=
  ⟨by decide, by decide, by decide, by decide, ⟨by decide, by decide, by decide, by decide, strong_2047⟩,
    ⟨by decide, by decide, by decide, by decide, not_strong_9⟩⟩

theorem witness_PrimesPassEveryMillerRabinRound :
    let s := xs #v[5, 3, 0, 0, 0, 0, 0, 0]
    Nat.Prime (s.reg 0) ∧ 5 ≤ s.reg 0 ∧ 2 ≤ s.reg 1 ∧ s.reg 1 ≤ s.reg 0 - 2 :=
  ⟨Nat.prime_five, by decide, by decide, by decide⟩

/-- n = 1, 4, 2, 3, a prime that passes all its rounds, and a composite whose first base is a witness. -/
theorem witness_MrTestRunsItsRounds :
    (xs #v[1, 0, 0, 0, 0, 0, 0, 0]).reg 0 < 2
    ∧ (let s := xs #v[4, 0, 0, 0, 0, 0, 0, 0]; 4 ≤ s.reg 0 ∧ s.reg 0 % 2 = 0)
    ∧ (xs #v[2, 0, 0, 0, 0, 0, 0, 0]).reg 0 = 2 ∧ (xs #v[3, 0, 0, 0, 0, 0, 0, 0]).reg 0 = 3
    ∧ (let s := { seeded 0 1 with x := #v[131, 0, 0, 0, 0, 0, 0, 0] };
        5 ≤ s.reg 0 ∧ s.reg 0 % 2 = 1
          ∧ ∀ i < 50, mrRound (s.reg 0) (baseAt s.cfg.stream (s.reg 0) s.rngPos i) = true)
    ∧ (let s := { seeded 0 1 with x := #v[2047, 0, 0, 0, 0, 0, 0, 0] };
        5 ≤ s.reg 0 ∧ s.reg 0 % 2 = 1 ∧ mrRound (s.reg 0) (baseAt s.cfg.stream (s.reg 0) s.rngPos 0) = false) :=
  ⟨by decide, by decide, by decide, by decide, ⟨by decide, by decide, by decide +kernel⟩,
    ⟨by decide, by decide, by decide +kernel⟩⟩

theorem witness_PrimesPassTheTestForEveryStream :
    let s := xs #v[5, 0, 0, 0, 0, 0, 0, 0]; Nat.Prime (s.reg 0) ∧ 5 ≤ s.reg 0 :=
  ⟨Nat.prime_five, by decide⟩

/-- L = 8, and R145's first candidate, 129 from word 0. -/
theorem witness_CandidateHasTopAndBottomBitSet :
    8 ≤ 8 ∧ drawCandidate (seeded 0 512).cfg.stream 8 0 = 129 := by decide +kernel

/-- BITLEN 7 and 33, the search of R145's example, and one whose only trial fails. -/
theorem witness_PrimegenAnswersTheFirstPassingCandidate :
    ({ core64 with configBitlen := 7 } : State).configBitlen.toNat < 8
    ∧ cfg64.width / 2 < ({ core64 with configBitlen := 33 } : State).configBitlen.toNat
    ∧ (let s := seeded 0 512;
        8 ≤ s.configBitlen.toNat ∧ s.configBitlen.toNat ≤ s.cfg.width / 2
          ∧ firstPass s.cfg.stream s.configBitlen.toNat s.rngPos (s.cfg.maxTrials s.configBitlen.toNat) 1)
    ∧ (let s := seeded 0 1;
        8 ≤ s.configBitlen.toNat ∧ s.configBitlen.toNat ≤ s.cfg.width / 2
          ∧ ∀ t < s.cfg.maxTrials s.configBitlen.toNat,
              ¬ trialPasses s.cfg.stream s.configBitlen.toNat s.rngPos t) := by
  refine ⟨by decide, by decide, ⟨by decide, by decide, by decide, ?_, ?_⟩, ⟨by decide, by decide, ?_⟩⟩
  · unfold trialPasses; decide +kernel
  · unfold trialPasses; decide +kernel
  · unfold trialPasses; decide +kernel

/-- A locked core; each cause of E_KEYGEN that a core can reach, at its edge; and the least p and q. -/
theorem witness_KeyderiveInstallsTheDerivedKey :
    ((keyed #v[0, 0, 0, 0, 0, 0, 0, 0]).cfg.legal = true ∧ (keyed #v[0, 0, 0, 0, 0, 0, 0, 0]).keyValid = true)
    ∧ core64.keyValid = false ∧ (2 < 3) ∧ 2 ^ core64.cfg.width ≤ 4294967311 * 4294967357 ∧ Nat.gcd 3 3 ≠ 1
    ∧ (∀ u, 65537 ≤ u → u < 65538 → Nat.gcd u ((917519 - 1) * (11 - 1)) ≠ 1)
    ∧ (3 ≤ 3 ∧ 3 ≤ 5 ∧ 3 * 5 < 2 ^ core64.cfg.width ∧ Nat.gcd 3 5 = 1
      ∧ ∃ u, 65537 ≤ u ∧ u < core64.cfg.eLimit ∧ Nat.gcd u ((3 - 1) * (5 - 1)) = 1) := by
  refine ⟨by decide, by decide, by decide, by decide, by decide, fun u h1 h2 => ?_,
    by decide, by decide, by decide, by decide, ⟨65537, by decide, by decide, by decide⟩⟩
  obtain rfl : u = 65537 := by omega
  decide

/-- A locked core, BITLEN 7 and 33, and the three ends of the draws: p fails, q fails, both are found. -/
theorem witness_KeygenDrawsTwoPrimesAndDerives :
    (keyed #v[0, 0, 0, 0, 0, 0, 0, 0]).keyValid = true
    ∧ (core64.keyValid = false ∧ ({ core64 with configBitlen := 7 } : State).configBitlen.toNat < 8
      ∧ cfg64.width / 2 < ({ core64 with configBitlen := 33 } : State).configBitlen.toNat)
    ∧ ((seeded 0 1).keyValid = false ∧ 8 ≤ (seeded 0 1).configBitlen.toNat
      ∧ (seeded 0 1).configBitlen.toNat ≤ (seeded 0 1).cfg.width / 2 ∧ (seeded 0 1).cfg.legal = true)
    ∧ (primegen (seeded 0 1).cfg 8 0).1 = none
    ∧ ((primegen (seeded 204 3).cfg 8 204).1 ≠ none
      ∧ (primegen (seeded 204 3).cfg 8 (primegen (seeded 204 3).cfg 8 204).2).1 = none)
    ∧ ((primegen (seeded 204 4).cfg 8 204).1 = some 211
      ∧ (primegen (seeded 204 4).cfg 8 (primegen (seeded 204 4).cfg 8 204).2).1 = some 193) :=
  ⟨by decide, by decide, by decide, by decide +kernel, by decide +kernel, by decide +kernel⟩

/-- No key; m = n; m = n - 1. -/
theorem witness_EncBlockGivesThePublicPower :
    (core64.Inv ∧ core64.keyValid = false)
    ∧ (let s := keyed #v[3233, 0, 0, 0, 0, 0, 0, 0]; s.Inv ∧ s.keyValid = true ∧ s.key.n ≤ s.reg 0)
    ∧ (let s := keyed #v[3232, 0, 0, 0, 0, 0, 0, 0]; s.Inv ∧ s.keyValid = true ∧ s.reg 0 < s.key.n) :=
  ⟨⟨core64_inv, by decide⟩, ⟨keyed_inv _ (by decide), by decide, by decide⟩,
    ⟨keyed_inv _ (by decide), by decide, by decide⟩⟩

/-- No key; c = n; c = n - 1. -/
theorem witness_DecBlockRecombinesThePrivatePowers :
    (core64.Inv ∧ core64.keyValid = false)
    ∧ (let s := keyed #v[3233, 0, 0, 0, 0, 0, 0, 0]; s.Inv ∧ s.keyValid = true ∧ s.key.n ≤ s.reg 0)
    ∧ (let s := keyed #v[3232, 0, 0, 0, 0, 0, 0, 0]; s.Inv ∧ s.keyValid = true ∧ s.reg 0 < s.key.n) :=
  witness_EncBlockGivesThePublicPower

theorem witness_CrtDecryptionEqualsThePrivatePower :
    (let s := keyed #v[61, 0, 0, 0, 0, 0, 0, 0];
      s.Inv ∧ s.keyValid = true ∧ Nat.Prime s.key.p ∧ Nat.Prime s.key.q ∧ s.key.p ≠ s.key.q ∧ s.reg 0 < s.key.n)
    ∧ (let s := xs #v[9, 7, 3, 0, 0, 0, 0, 0];
      s.cfg.legal = true ∧ s.keyValid = false ∧ s.reg 0 = 9 ∧ s.reg 1 = 7 ∧ s.reg 2 = 3) :=
  ⟨⟨keyed_inv _ (by decide), by decide, by norm_num [keyed, key61], by norm_num [keyed, key61], by decide, by decide⟩,
    by decide⟩

theorem witness_DecryptionInvertsEncryption :
    let s := keyed #v[3232, 0, 0, 0, 0, 0, 0, 0]
    s.Inv ∧ s.keyValid = true ∧ Nat.Prime s.key.p ∧ Nat.Prime s.key.q ∧ s.key.p ≠ s.key.q ∧ s.reg 0 < s.key.n :=
  ⟨keyed_inv _ (by decide), by decide, by norm_num [keyed, key61], by norm_num [keyed, key61], by decide, by decide⟩

theorem witness_DefaultExponentSearchNeverFails :
    let s := xs #v[917519, 11, 0, 0, 0, 0, 0, 0]
    s.cfg.legal = true ∧ s.cfg.eLimit = 75537 ∧ s.keyValid = false ∧ 3 ≤ s.reg 0 ∧ 3 ≤ s.reg 1
      ∧ s.reg 0 * s.reg 1 < 2 ^ s.cfg.width ∧ Nat.gcd (s.reg 0) (s.reg 1) = 1 := by decide

/-- KEYDERIVE's completion, and the reset of a keyed core. -/
theorem witness_KeyBankChangesOnlyByInstallationOrReset :
    (∃ s t : State, step s = .next t ∧ t.keyValid ≠ s.keyValid ∧ s.events = .reset :: [])
    ∧ ((after (step (busyWith 0x00001008 (xs #v[61, 53, 0, 0, 0, 0, 0, 0])))).map (fun t => (t.key, t.keyValid))
      = some (key61, true)) :=
  ⟨⟨{ keyed #v[0, 0, 0, 0, 0, 0, 0, 0] with events := [.reset] },
    applyReset { keyed #v[0, 0, 0, 0, 0, 0, 0, 0] with events := [] }, by rfl, by decide, rfl⟩, by decide +kernel⟩

/-- MR_TEST moves the stream: R143's example. -/
theorem witness_OnlyRandomCommandsMoveTheStream :
    (after (step (busyWith 0x00000046 { seeded 0 1 with x := #v[131, 0, 0, 0, 0, 0, 0, 0] }))).map (fun t => (t.rngPos, t.busy))
      = some (100, false) := by decide +kernel

/-- A command that succeeds and one that ends with an error. -/
theorem witness_RegisterCommandsChangeOnlyTheirDestination :
    (destination (.modexp 3 0 1 2) = some 3
      ∧ ∃ t, exec (.modexp 3 0 1 2) (xs #v[4, 13, 497, 0, 0, 0, 0, 0]) = .next t ∧ t.err = false)
    ∧ (destination (.encBlock 3 2) = some 3 ∧ ∃ t, exec (.encBlock 3 2) core64 = .next t ∧ t.err = true) :=
  ⟨⟨rfl, _, rfl, by decide⟩, ⟨rfl, _, rfl, by decide⟩⟩

theorem witness_OtherCommandsWriteNoOperandRegister :
    (destination .nop = none ∧ ∃ t, exec .nop core64 = .next t)
    ∧ (destination (.keyderive 0 1) = none ∧ ∃ t, exec (.keyderive 0 1) (xs #v[61, 53, 0, 0, 0, 0, 0, 0]) = .next t) :=
  ⟨⟨rfl, _, rfl⟩, ⟨rfl, _, rfl⟩⟩

end Sys2Proof.Tests
end

/-! ## Scope: the legal parameter ranges -/

namespace Sys2Proof.Machine

/-- The complement of the ranges of R6: each way for one parameter to lie outside its own. -/
theorem Config.legal_eq_false_iff (c : Config) : c.legal = false ↔
    c.width % 32 ≠ 0 ∨ c.width < 64 ∨ 8192 < c.width ∨ c.eLimit ≤ Config.eStart ∨ 2 ^ 64 < c.eLimit := by
  rw [← Bool.not_eq_true, Config.legal_iff]
  simp only [not_and_or, not_le, not_lt, ne_eq]

/-- Settles O11: a parameter outside its range makes the configuration illegal, and `step` refuses an illegal
configuration before it looks at any event. -/
theorem illegalConfigurationIsRefused : Obligations.IllegalConfigurationIsRefused :=
  fun s hout => step_illegal ((Config.legal_eq_false_iff s.cfg).2 hout)

end Sys2Proof.Machine

/-! ## State and reset (10_state.md): the invariant, and what each kind of step can change -/

namespace Sys2Proof.Machine

section
open Sys2Proof.Claims

/-! ### What a step, an access and an admitted write can do -/

/-- The inversion of `step`: a step that answers is a reset, one access, or the engine's turn, taken on the
state without the event; the engine's turn comes with its event or with no event on its way. -/
theorem step_cases {s t : State} (h : step s = .next t) :
    s.cfg.legal = true ∧ ∃ rest,
      (s.events = .reset :: rest ∧ t = applyReset { s with events := rest })
      ∨ (∃ a, s.events = .access a :: rest ∧ busAccess a { s with events := rest } = .next t)
      ∨ (((s.events = [] ∧ rest = []) ∨ s.events = .complete :: rest)
          ∧ engineTurn { s with events := rest } = .next t) := by
  have hc : s.cfg.legal = true := by
    by_contra hc
    rw [step_illegal (by simpa using hc)] at h
    cases h
  refine ⟨hc, ?_⟩
  cases he : s.events with
  | nil =>
    rw [step_idle hc he] at h
    exact ⟨[], .inr (.inr ⟨.inl ⟨rfl, rfl⟩, by rwa [← he]⟩)⟩
  | cons e rest =>
    refine ⟨rest, ?_⟩
    cases e with
    | access a => exact .inr (.inl ⟨a, rfl, by rwa [step_access hc he] at h⟩)
    | complete => exact .inr (.inr ⟨.inr rfl, by rwa [step_complete hc he] at h⟩)
    | reset =>
      rw [step_reset hc he] at h
      cases h
      exact .inl ⟨rfl, rfl⟩

/-- A read's whole-state frame (R67): only the answer and the model's counter of draws can differ. -/
theorem readLoc_frame (l : Loc) (s : State) :
    readLoc l s = { s with reply := (readLoc l s).reply, drawPos := (readLoc l s).drawPos } := by
  unfold readLoc
  split <;> rfl

/-- Everything an admitted write can do (R68, R69): nothing, drop with WIGN, accept a command, set BITLEN, or
set one word of an operand register. -/
theorem writeLoc_cases {l : Loc} (v : Word) {s : State} (hl : l.ValidFor s.cfg.words) :
    writeLoc l v s = answer .written s
    ∨ writeLoc l v s = answer .written { s with wign := true }
    ∨ (s.busy = false ∧
        (writeLoc l v s = answer .written (accept v s)
        ∨ writeLoc l v s = answer .written { s with configBitlen := bitlenOfWord v }
        ∨ ∃ r j, j < s.cfg.words
            ∧ writeLoc l v s = answer .written (s.setReg r (setSlotWord s.cfg.width (s.reg r) j v)))) := by
  unfold writeLoc
  by_cases hw : l.writable = true
  · rw [if_pos hw]
    by_cases hb : s.busy = true
    · exact .inr (.inl (by rw [if_pos hb]))
    · rw [if_neg hb]
      refine .inr (.inr ⟨by simpa using hb, ?_⟩)
      cases l with
      | ctrl => exact .inl rfl
      | config => exact .inr (.inl rfl)
      | operand r j => exact .inr (.inr ⟨r, j, hl, rfl⟩)
      | _ => cases hw
  · exact .inl (by rw [if_neg hw])

/-- No access moves the key bank, KEY_VALID, RNGPOS or a parameter (R36, R39, R67 to R69). -/
theorem busAccess_frame {a : Access} {s t : State} (h : busAccess a s = .next t) :
    t.key = s.key ∧ t.keyValid = s.keyValid ∧ t.rngPos = s.rngPos ∧ t.cfg = s.cfg := by
  obtain ⟨-, e⟩ | ⟨f, e⟩ | ⟨l, -, e⟩ | ⟨l, v, hl, e⟩ := busAccess_cases a s <;> rw [e] at h <;> cases h
  · simp
  · rw [readLoc_frame]
    simp
  · obtain hw | hw | ⟨-, hw | hw | ⟨r, j, -, hw⟩⟩ := writeLoc_cases v hl <;> rw [hw] <;> simp

/-- A read, admitted or a bus error, changes its answer and the model's counter of draws alone. -/
theorem busAccess_read_frame {bits addr : Nat} {s t : State} (h : busAccess (.read bits addr) s = .next t) :
    t = { s with reply := t.reply, drawPos := t.drawPos } := by
  simp only [busAccess] at h
  split at h <;> cases h
  unfold serve
  split
  · exact readLoc_frame _ s
  · rfl

/-! ### The invariant, operation by operation -/

/-- The invariant does not speak of WIGN, BITLEN, RNGPOS or the model's own fields. -/
theorem State.Inv.untracked {s : State} (h : s.Inv) (wign : Bool) (bitlen : BitVec 16) (pos : Nat)
    (events : List Event) (reply : Option BusReply) (draws : Nat) :
    State.Inv { s with
      wign := wign, configBitlen := bitlen, rngPos := pos, events := events, reply := reply, drawPos := draws } :=
  { h with }

theorem State.Inv.answer {s : State} (h : s.Inv) (r : BusReply) : (answer r s).Inv := h.untracked ..

theorem State.Inv.tookWords {s : State} (h : s.Inv) (pos : Nat) : (tookWords pos s).Inv := h.untracked ..

theorem State.Inv.readLoc {s : State} (h : s.Inv) (l : Loc) : (readLoc l s).Inv := by
  rw [readLoc_frame]
  exact h.untracked ..

theorem State.Inv.accept {s : State} (h : s.Inv) (w : Word) : (accept w s).Inv :=
  { h with
    pending_busy := rfl
    pending_ctrl := fun _ e => Option.some.inj e
    done_not_busy := by simp
    err_done := by simp
    err_code := by simp
    code_legal := by simp }

theorem State.Inv.setReg {s : State} (h : s.Inv) (r : Reg) {v : Nat} (hv : v < 2 ^ s.cfg.width) :
    (s.setReg r v).Inv :=
  { h with
    reg_lt := fun q => by
      rw [reg_setReg]
      split
      · exact hv
      · exact h.reg_lt q }

theorem State.Inv.retire {s : State} (h : s.Inv) : (retire s).Inv :=
  { h with
    pending_busy := rfl
    pending_ctrl := by simp
    done_not_busy := by simp
    err_done := fun _ => rfl }

theorem State.Inv.raiseError {s : State} (h : s.Inv) (c : ErrorCode) : (raiseError c s).Inv :=
  { h with
    pending_busy := rfl
    pending_ctrl := by simp
    done_not_busy := by simp
    err_done := fun _ => rfl
    err_code := by simp
    code_legal := code_le c }

theorem State.Inv.install {s : State} (h : s.Inv) {k : KeyBank} (hk : k.Valid s.cfg.width) :
    (install k s).Inv :=
  { h with
    key_lt := hk.get_lt
    key_empty := by simp
    key_valid := fun _ => hk }

theorem powerOn_inv {c : Config} (hc : c.legal = true) : (State.powerOn c).Inv where
  config_legal := hc
  reg_lt r := by rw [reg_powerOn]; exact Nat.two_pow_pos _
  key_lt k := (keyBank_zero_get k).trans_lt (Nat.two_pow_pos _)
  pending_busy := rfl
  pending_ctrl _ e := nomatch e
  done_not_busy e := nomatch e.1
  err_done e := nomatch e
  err_code := by simp [State.powerOn]
  code_legal := Nat.zero_le _
  key_empty _ := rfl
  key_valid e := nomatch e

theorem State.Inv.applyReset {s : State} (h : s.Inv) : (applyReset s).Inv :=
  (powerOn_inv h.config_legal).untracked ..

theorem State.Inv.writeLoc {s : State} (h : s.Inv) {l : Loc} (hl : l.ValidFor s.cfg.words) (v : Word) :
    (writeLoc l v s).Inv := by
  obtain hw | hw | ⟨-, hw | hw | ⟨r, j, hj, hw⟩⟩ := writeLoc_cases v hl <;> rw [hw] <;> apply State.Inv.answer
  · exact h
  · exact h.untracked ..
  · exact h.accept v
  · exact h.untracked ..
  · exact h.setReg r (setSlotWord_lt v ((Config.legal_iff _).1 h.config_legal).1 hj (h.reg_lt r))

theorem State.Inv.busAccess {s t : State} (h : s.Inv) {a : Access} (ha : busAccess a s = .next t) : t.Inv := by
  obtain ⟨-, e⟩ | ⟨f, e⟩ | ⟨l, -, e⟩ | ⟨l, v, hl, e⟩ := busAccess_cases a s <;> rw [e] at ha <;> cases ha
  · exact h.answer _
  · exact h.readLoc l
  · exact h.writeLoc hl v

theorem State.Inv.exec {s t : State} (h : s.Inv) {i : Instr} (hi : exec i s = .next t) : t.Inv := by
  obtain ⟨pos, -, ⟨c, e⟩ | e | ⟨rd, v, e, hv⟩ | ⟨k, p, q, -, hk, e⟩⟩ := exec_cases i s <;>
    rw [e] at hi <;> cases hi
  · exact (h.tookWords pos).raiseError c
  · exact (h.tookWords pos).retire
  · exact ((h.tookWords pos).setReg rd (hv h)).retire
  · exact ((h.tookWords pos).install (derive_valid h.config_legal hk)).retire

theorem State.Inv.engineTurn {s t : State} (h : s.Inv) (ht : engineTurn s = .next t) : t.Inv := by
  obtain ⟨-, e⟩ | ⟨w, i, -, -, -, e⟩ | ⟨w, r, -, -, -, e⟩ := engineTurn_cases s <;> rw [e] at ht
  · cases ht
    exact h
  · exact h.exec ht
  · cases ht
    exact h.raiseError _

/-! ### What a completing command leaves alone -/

/-- Only MR_TEST, PRIMEGEN and KEYGEN take random words (R39). -/
theorem exec_rngPos_of_not_usesRandom {i : Instr} {s t : State} (hi : usesRandom i = false)
    (h : exec i s = .next t) : t.rngPos = s.rngPos := by
  cases i with
  | mrTest _ _ => cases hi
  | primegen _ => cases hi
  | keygen => cases hi
  | keyderive p q =>
    cases h
    split
    · rfl
    · cases hd : derive s.cfg (s.reg p) (s.reg q) <;> simp [deriveAndInstall, hd]
  | _ => -- no ending of the other commands, an error or one register, touches RNGPOS
    cases h
    simp [apply_ite (concluded s), apply_ite State.rngPos]

/-- Only KEYDERIVE and KEYGEN set KEY_VALID (R36). -/
theorem exec_keyValid_of_not_installsKey {i : Instr} {s t : State} (hi : installsKey i = false)
    (h : exec i s = .next t) : t.keyValid = s.keyValid := by
  cases i with
  | keyderive _ _ => cases hi
  | keygen => cases hi
  | primegen rd =>
    simp only [exec, execPrimegen] at h
    split at h <;> cases h
    · cases hg : (primegen s.cfg s.configBitlen.toNat s.rngPos).1 <;> simp
    · rfl
  | _ => -- no ending of the other commands, an error or one register, touches KEY_VALID
    cases h
    simp [apply_ite (concluded s), apply_ite State.keyValid]

end

/-- Settles O9: a step is a reset, one access or the engine's turn, and each keeps the invariant. -/
theorem stepKeepsTheInvariant : Obligations.StepKeepsTheInvariant := by
  intro s t h ht
  obtain ⟨-, rest, ⟨-, rfl⟩ | ⟨a, -, ha⟩ | ⟨-, he⟩⟩ := step_cases ht
  · exact State.Inv.applyReset (h.untracked ..)
  · exact State.Inv.busAccess (h.untracked ..) ha
  · exact State.Inv.engineTurn (h.untracked ..) he

/-- Settles O8: the reset state is that of `State.powerOn`, whose registers and key bank are 0. -/
theorem resetStateMeetsTheInvariant : Obligations.ResetStateMeetsTheInvariant :=
  ⟨powerOn_inv (by decide), fun _ => powerOn_inv⟩

end Sys2Proof.Machine

namespace Sys2Proof.Machine

section
open Sys2Proof.Claims

/-! ### The stream and the key bank along a step -/

theorem rngPosAfterReset_idle {s : State} (hb : s.busy = false) : rngPosAfterReset s = s.rngPos := by
  simp [rngPosAfterReset, hb]

theorem le_rngPosAfterReset (s : State) : s.rngPos ≤ rngPosAfterReset s := by
  unfold rngPosAfterReset
  split <;> omega

/-- What a step of the engine does to RNGPOS (R39): a move needs a pending command that takes random words. -/
theorem engineTurn_rngPos {s t : State} (h : engineTurn s = .next t) :
    s.rngPos ≤ t.rngPos
    ∧ (t.rngPos ≠ s.rngPos → s.busy = true ∧ t.busy = false
        ∧ ∃ w i, s.pending = some w ∧ decode w = .ok i ∧ usesRandom i = true) := by
  obtain ⟨-, e⟩ | ⟨w, i, hb, hp, hd, e⟩ | ⟨w, r, -, -, -, e⟩ := engineTurn_cases s <;> rw [e] at h
  · cases h
    simp
  · have hmove : t.rngPos ≠ s.rngPos → usesRandom i = true := fun hne => by
      by_contra hi
      exact hne (exec_rngPos_of_not_usesRandom (by simpa using hi) h)
    obtain ⟨pos, hpos, hx⟩ := exec_cases i s
    have ht : t.rngPos = pos ∧ t.busy = false := by
      obtain ⟨c, e⟩ | e | ⟨rd, v, e, -⟩ | ⟨k, p, q, -, -, e⟩ := hx <;> rw [e] at h <;> cases h <;> simp
    exact ⟨ht.1 ▸ hpos, fun hne => ⟨hb, ht.2, w, i, hp, hd, hmove hne⟩⟩
  · cases h
    simp

/-- What a step of the engine does to the key bank (R36): nothing, or one installation while KEY_VALID is 0. -/
theorem engineTurn_key {s t : State} (h : engineTurn s = .next t) :
    (t.key = s.key ∧ t.keyValid = s.keyValid)
    ∨ (s.keyValid = false ∧ t.keyValid = true ∧ s.busy = true ∧ t.busy = false ∧ t.err = s.err
        ∧ ∃ w i, s.pending = some w ∧ decode w = .ok i ∧ installsKey i = true) := by
  obtain ⟨-, e⟩ | ⟨w, i, hb, hp, hd, e⟩ | ⟨w, r, -, -, -, e⟩ := engineTurn_cases s <;> rw [e] at h
  · cases h
    simp
  · obtain ⟨pos, -, ⟨c, e⟩ | e | ⟨rd, v, e, -⟩ | ⟨k, p, q, hkv, -, e⟩⟩ := exec_cases i s
    case inr.inr.inr =>
      have hi : installsKey i = true := by
        by_contra hi
        have := exec_keyValid_of_not_installsKey (by simpa using hi) e
        simp [hkv] at this
      rw [e] at h
      cases h
      exact .inr ⟨hkv, rfl, hb, rfl, rfl, w, i, hp, hd, hi⟩
    all_goals
      rw [e] at h
      cases h
      simp
  · cases h
    simp

/-! ### The words of the control registers -/

/-- Concatenation as numbers: the left part stands above the `m` bits of the right one. -/
theorem append_toNat {n m : Nat} (a : BitVec n) (b : BitVec m) : (a ++ b).toNat = a.toNat * 2 ^ m + b.toNat := by
  rw [BitVec.toNat_append, ← Nat.shiftLeft_add_eq_or_of_lt b.isLt, Nat.shiftLeft_eq]

theorem statusWord_toNat (s : State) : (statusWord s).toNat =
    s.busy.toNat + 2 * s.done.toNat + 4 * s.err.toNat + 8 * s.keyValid.toNat + 16 * s.wign.toNat := by
  simp only [statusWord, append_toNat, BitVec.toNat_ofBool, BitVec.toNat_ofNat]
  omega

theorem statusWord_applyReset (s : State) : statusWord (applyReset s) = 0 := by
  simp [statusWord]

theorem paramWord_toNat {c : Config} (hc : c.legal = true) :
    (paramWord c).toNat = c.width / 32 + 50 * 2 ^ 16 + 8 * 2 ^ 24 := by
  have hw : c.words ≤ 256 := Config.words_le hc
  simp only [paramWord, append_toNat, BitVec.toNat_ofNat, Config.operandCount, Config.mrRounds]
  rw [Nat.mod_eq_of_lt (a := c.words) (by omega), Config.words]
  omega

theorem resetBitlen_toNat (c : Config) : (resetBitlen c).toNat = min 1024 (c.width / 2) := by
  rw [resetBitlen, BitVec.toNat_ofNat]
  omega

/-! ### Reads of the window, as steps -/

theorem Loc.validFor_of_not_isData {l : Loc} (ww : Nat) (h : l.isData = false) : l.ValidFor ww := by
  cases l with
  | operand _ _ => cases h
  | keyWord _ _ => cases h
  | _ => trivial

theorem step_read {s : State} {l : Loc} {rest : List Event} (hc : s.cfg.legal = true)
    (hl : l.ValidFor s.cfg.words) (he : nextAccess s (.read 32 (s.cfg.base + l.offset)) rest) :
    step s = .next (readLoc l { s with events := rest }) := by
  rw [step_access hc he]
  exact busAccess_read (s := { s with events := rest }) hc hl

/-- A control register reads as its word, busy or idle (R67). -/
theorem step_read_control {s : State} {l : Loc} {rest : List Event} (hc : s.cfg.legal = true)
    (hl : l.isData = false) (he : nextAccess s (.read 32 (s.cfg.base + l.offset)) rest) :
    step s = .next { s with events := rest, reply := some (.data (s.window l)) } := by
  rw [step_read hc (Loc.validFor_of_not_isData _ hl) he, readLoc, if_neg (by simp [hl])]
  cases l <;> rfl

/-- An operand or key-bank word of a busy core reads as a free value (R22, R37). -/
theorem step_read_busy_data {s : State} {l : Loc} {rest : List Event} (hc : s.cfg.legal = true)
    (hb : s.busy = true) (hd : l.isData = true) (hl : l.ValidFor s.cfg.words)
    (he : nextAccess s (.read 32 (s.cfg.base + l.offset)) rest) :
    step s = .next { s with
      events := rest, drawPos := s.drawPos + 1, reply := some (.data (Config.busyReadValue s.drawPos)) } := by
  rw [step_read hc hl he, readLoc, if_pos (by simp [hb, hd])]
  rfl

end

/-- Settles O7: a reset applies `applyReset`, whose fields are those of R41's table. -/
theorem resetLeavesTheTabulatedState : Obligations.ResetLeavesTheTabulatedState := by
  intro s rest hc he
  refine ⟨_, step_reset hc he, rfl, rfl, reg_applyReset _, rfl, rfl, rfl, rfl, rfl,
    statusWord_applyReset _, rfl, rfl, resetBitlen_toNat s.cfg, keyBank_zero_get, rfl, fun hb => ?_, fun _ => ?_, rfl,
    paramWord_toNat hc⟩
  · exact rngPosAfterReset_idle (s := { s with events := rest }) hb
  · exact le_rngPosAfterReset { s with events := rest }

/-- Settles O18: an error sets ERR with a code of R241, and every other end leaves both as acceptance
cleared them. -/
theorem successLeavesNoErrorCode : Obligations.SuccessLeavesNoErrorCode := by
  intro s w
  change ∃ t, completeWord w (accept w s) = .next t ∧ _
  unfold completeWord
  split
  · next i _ =>
    obtain ⟨pos, -, ⟨c, e⟩ | e | ⟨rd, v, e, -⟩ | ⟨k, p, q, -, -, e⟩⟩ := exec_cases i (accept w s) <;>
      refine ⟨_, e, ?_⟩
    · simp [code_le]
    · simp
    · simp
    · simp
  · exact ⟨_, rfl, by simp [code_le]⟩

/-- Settles O21: each of the six offsets is that of a control register, which reads as its word. -/
theorem controlRegisterReads : Obligations.ControlRegisterReads := by
  intro s off rest hc he value hmem
  simp only [List.mem_cons, Prod.mk.injEq, List.not_mem_nil, or_false] at hmem
  obtain ⟨rfl, rfl⟩ | ⟨rfl, rfl⟩ | ⟨rfl, rfl⟩ | ⟨rfl, rfl⟩ | ⟨rfl, rfl⟩ | ⟨rfl, rfl⟩ := hmem
  · exact ⟨_, rfl, step_read_control (l := .id) hc rfl he⟩
  · exact ⟨_, paramWord_toNat hc, step_read_control (l := .param) hc rfl he⟩
  · exact ⟨_, rfl, step_read_control (l := .ctrl) hc rfl he⟩
  · exact ⟨_, statusWord_toNat s, step_read_control (l := .status) hc rfl he⟩
  · exact ⟨_, BitVec.toNat_setWidth_of_le (by decide), step_read_control (l := .errcode) hc rfl he⟩
  · exact ⟨_, BitVec.toNat_setWidth_of_le (by decide), step_read_control (l := .config) hc rfl he⟩

/-- Settles O29: both kinds of offset are those of a data word. -/
theorem busyDataReadsAnswerAFreeValue : Obligations.BusyDataReadsAnswerAFreeValue := by
  rintro s j rest off hc hb hj (⟨r, rfl⟩ | ⟨k, rfl⟩) he
  · exact step_read_busy_data (l := .operand r j) hc hb rfl hj he
  · exact step_read_busy_data (l := .keyWord k j) hc hb rfl hj he

/-- Settles O30, from the frame of every access and the whole-state frame of a read. -/
theorem hostAccessNeverTouchesKeyOrStream : Obligations.HostAccessNeverTouchesKeyOrStream := by
  intro s t a rest he ht
  rw [step_access (step_cases ht).1 he] at ht
  obtain ⟨hk, hv, hr, hc⟩ := busAccess_frame ht
  refine ⟨hk, hv, hr, hc, ?_⟩
  rintro bits addr rfl
  exact busAccess_read_frame ht

/-- Settles O53: an access leaves the key bank alone, and the engine changes it by an installation alone. -/
theorem keyBankChangesOnlyByInstallationOrReset : Obligations.KeyBankChangesOnlyByInstallationOrReset := by
  intro s t ht hne
  obtain ⟨-, rest, ⟨he, -⟩ | ⟨a, -, ha⟩ | ⟨-, he⟩⟩ := step_cases ht
  · exact .inl ⟨rest, he⟩
  · obtain ⟨hk, hv, -⟩ := busAccess_frame ha
    exact absurd hne (by simp [hk, hv])
  · obtain ⟨hk, hv⟩ | hinstall := engineTurn_key he
    · exact absurd hne (by simp [hk, hv])
    · exact .inr hinstall

/-- Settles O54: a reset moves the stream of a busy core alone, an access never, and the engine by a command
that takes random words. -/
theorem onlyRandomCommandsMoveTheStream : Obligations.OnlyRandomCommandsMoveTheStream := by
  intro s t ht
  obtain ⟨-, rest, ⟨he, rfl⟩ | ⟨a, -, ha⟩ | ⟨-, he⟩⟩ := step_cases ht
  · refine ⟨le_rngPosAfterReset { s with events := rest }, fun hne => ⟨?_, rfl, .inl ⟨rest, he⟩⟩⟩
    by_contra hb
    exact hne (rngPosAfterReset_idle (s := { s with events := rest }) (by simpa using hb))
  · obtain ⟨-, -, hr, -⟩ := busAccess_frame ha
    exact ⟨hr.ge, fun hne => absurd hr hne⟩
  · obtain ⟨hle, hmove⟩ := engineTurn_rngPos he
    refine ⟨hle, fun hne => ?_⟩
    obtain ⟨hb, ht, hcommand⟩ := hmove hne
    exact ⟨hb, ht, .inr hcommand⟩

end Sys2Proof.Machine

/-! ## The register window (20_memory.md): what an access does, by its width, its offset and its location -/

namespace Sys2Proof.Machine

section
open Sys2Proof.Claims

/-! ### One access, read or write alike -/

/-- The width of an access (R63). -/
def Access.bits : Access → Nat
  | .read b _ => b
  | .write b _ _ => b

/-- What an admitted access does at its location (R67 to R69). -/
def Access.perform : Access → Loc → State → State
  | .read _ _, l => readLoc l
  | .write _ _ v, l => writeLoc l v

theorem busAccess_of_windowOffset {a : Access} {s : State} {off : Nat} (h : windowOffset s.cfg a.addr = some off) :
    busAccess a s = .next (serve a.bits off a.perform s) := by
  cases a <;> simp only [Access.addr] at h <;> simp only [busAccess, h] <;> rfl

theorem busAccess_outside {a : Access} {s : State} (h : windowOffset s.cfg a.addr = none) :
    busAccess a s = .refused .outsideWindow := by
  cases a <;> simp only [Access.addr] at h <;> simp only [busAccess, h]

theorem windowOffset_eq_none_iff (c : Config) (addr : Nat) :
    windowOffset c addr = none ↔ addr < c.base ∨ c.base + windowBytes ≤ addr := by
  simp only [windowOffset, ite_eq_right_iff, reduceCtorEq, imp_false, not_and_or, not_le, not_lt]

theorem serve_ok {s : State} {bits off : Nat} {l : Loc} (act : Loc → State → State)
    (h : locateAccess s.cfg.words bits off = .ok l) : serve bits off act s = act l s := by
  simp only [serve, h]

theorem serve_error {s : State} {bits off : Nat} {f : Fault} (act : Loc → State → State)
    (h : locateAccess s.cfg.words bits off = .error f) : serve bits off act s = answer (.busError f) s := by
  simp only [serve, h]

/-- An admitted access is never answered with a bus error. -/
theorem perform_reply_ne_busError (a : Access) (l : Loc) (s : State) (f : Fault) :
    (a.perform l s).reply ≠ some (.busError f) := by
  cases a with
  | read _ _ =>
    simp only [Access.perform, readLoc]
    split <;> simp
  | write _ _ v => simp [Access.perform, writeLoc]

/-! ### Which accesses are bus errors (R63 to R65) -/

/-- The unmapped offsets of R65: the reserved range, and the words of a slot from WW on. -/
theorem locate_eq_none_iff {ww off : Nat} (h4 : off % 4 = 0) (hoff : off < windowBytes) :
    locate ww off = none ↔ (0x018 ≤ off ∧ off < 0x1000) ∨ (0x1000 ≤ off ∧ ww ≤ off % 0x400 / 4) := by
  unfold windowBytes at hoff
  by_cases hc : off < 0x1000
  · have hmapped : locate ww off = none ↔ 0x018 ≤ off := by
      simp only [locate, if_pos hc]
      split
      case h_7 n0 n1 n2 n3 n4 n5 =>
        rw [imp_false] at n0 n1 n2 n3 n4 n5
        exact iff_of_true rfl (by omega)
      all_goals exact iff_of_false (by simp) (by decide)
    rw [hmapped]
    omega
  · by_cases hw : off % 0x400 / 4 < ww
    · have hsome : locate ww off ≠ none := by
        simp only [locate, if_neg hc, if_pos hw]
        split
        · simp
        · obtain ⟨k, hk⟩ : ∃ k, KeyReg.ofIndex ((off - 0x3000) / 0x400) = some k := by
            have : (off - 0x3000) / 0x400 < 9 := by omega
            interval_cases (off - 0x3000) / 0x400 <;> exact ⟨_, rfl⟩
          simp [hk]
      exact iff_of_false hsome (by omega)
    · exact iff_of_true (by simp only [locate, if_neg hc, if_neg hw]) (by omega)

theorem locateAccess_unmapped {ww off : Nat} (h4 : off % 4 = 0) (h : locate ww off = none) :
    locateAccess ww 32 off = .error .busErrorUnmapped := by
  simp [locateAccess, h4, h]

/-- An access of the window is admitted or a bus error, and which of the two is R63 to R65. -/
theorem locateAccess_isOk_iff {ww bits off : Nat} (hoff : off < windowBytes) :
    (locateAccess ww bits off).isOk = true ↔
      bits = 32 ∧ off % 4 = 0 ∧ (off < 0x018 ∨ (0x1000 ≤ off ∧ off % 0x400 / 4 < ww)) := by
  unfold locateAccess
  by_cases hb : bits = 32
  · by_cases h4 : off % 4 = 0
    · have hnone := locate_eq_none_iff (ww := ww) h4 hoff
      rw [if_pos hb, if_pos h4]
      cases hl : locate ww off with
      | none =>
        have := hnone.1 hl
        exact iff_of_false (by simp [Except.isOk, Except.toBool]) (by omega)
      | some l =>
        have := mt hnone.2 (by simp [hl])
        exact iff_of_true rfl (by omega)
    · simp [hb, h4, Except.isOk, Except.toBool]
  · simp [hb, Except.isOk, Except.toBool]

/-! ### What an admitted write does (R68, R69) -/

theorem writeLoc_readOnly {l : Loc} (hl : l.writable = false) (v : Word) (s : State) :
    writeLoc l v s = answer .written s := by
  simp [writeLoc, hl]

theorem writeLoc_busy {l : Loc} {s : State} (hl : l.writable = true) (hb : s.busy = true) (v : Word) :
    writeLoc l v s = answer .written { s with wign := true } := by
  simp [writeLoc, hl, hb]

theorem writeLoc_idle {l : Loc} {s : State} (hl : l.writable = true) (hb : s.busy = false) (v : Word) :
    writeLoc l v s = answer .written (writeIdle l v s) := by
  simp [writeLoc, hl, hb]

theorem bitlenOfWord_toNat (v : Word) : (bitlenOfWord v).toNat = v.toNat % 2 ^ 16 := by
  simp [bitlenOfWord]

/-! ### The accesses as steps -/

/-- The bus address of a word of an operand slot as R60 and R61 write it. -/
theorem operand_addr (b : Nat) (r : Reg) (j : Nat) :
    b + 0x1000 + 0x400 * r.val + 4 * j = b + (Loc.operand r j).offset := by
  simp only [Loc.offset]
  omega

/-- The bus address of a word of a key slot as R60 and R61 write it. -/
theorem keyWord_addr (b : Nat) (k : KeyReg) (j : Nat) :
    b + 0x3000 + 0x400 * k.index + 4 * j = b + (Loc.keyWord k j).offset := by
  simp only [Loc.offset]
  omega

/-- Every location of an idle core reads as the word it holds (R67). -/
theorem step_read_of_idle {s : State} {l : Loc} {rest : List Event} (hc : s.cfg.legal = true)
    (hb : s.busy = false) (hl : l.ValidFor s.cfg.words)
    (he : nextAccess s (.read 32 (s.cfg.base + l.offset)) rest) :
    step s = .next { s with events := rest, reply := some (.data (s.window l)) } := by
  rw [step_read hc hl he, readLoc, if_neg (by simp [hb])]
  cases l <;> rfl

theorem step_write {s : State} {l : Loc} {v : Word} {rest : List Event} (hc : s.cfg.legal = true)
    (hl : l.ValidFor s.cfg.words) (he : nextAccess s (.write 32 (s.cfg.base + l.offset) v) rest) :
    step s = .next (writeLoc l v { s with events := rest }) := by
  rw [step_access hc he]
  exact busAccess_write (s := { s with events := rest }) v hc hl

theorem step_write_readOnly {s : State} {l : Loc} {v : Word} {rest : List Event} (hc : s.cfg.legal = true)
    (hw : l.writable = false) (hl : l.ValidFor s.cfg.words)
    (he : nextAccess s (.write 32 (s.cfg.base + l.offset) v) rest) :
    step s = .next { s with events := rest, reply := some .written } := by
  rw [step_write hc hl he, writeLoc_readOnly hw]
  rfl

theorem step_write_of_busy {s : State} {l : Loc} {v : Word} {rest : List Event} (hc : s.cfg.legal = true)
    (hb : s.busy = true) (hw : l.writable = true) (hl : l.ValidFor s.cfg.words)
    (he : nextAccess s (.write 32 (s.cfg.base + l.offset) v) rest) :
    step s = .next { s with events := rest, reply := some .written, wign := true } := by
  rw [step_write hc hl he, writeLoc_busy (s := { s with events := rest }) hw hb]
  rfl

theorem step_write_of_idle {s : State} {l : Loc} {v : Word} {rest : List Event} (hc : s.cfg.legal = true)
    (hb : s.busy = false) (hw : l.writable = true) (hl : l.ValidFor s.cfg.words)
    (he : nextAccess s (.write 32 (s.cfg.base + l.offset) v) rest) :
    step s = .next (answer .written (writeIdle l v { s with events := rest })) := by
  rw [step_write hc hl he, writeLoc_idle (s := { s with events := rest }) hw hb]

/-- An access of the window as a step. -/
theorem step_serve {s : State} {a : Access} {off : Nat} {rest : List Event} (hc : s.cfg.legal = true)
    (he : nextAccess s a rest) (ha : a.addr = s.cfg.base + off) (hoff : off < windowBytes) :
    step s = .next (serve a.bits off a.perform { s with events := rest }) := by
  rw [step_access hc he]
  exact busAccess_of_windowOffset (by rw [ha]; exact windowOffset_base s.cfg hoff)

/-- A bus error as a step (R66): the answer, and nothing else. -/
theorem step_busError {s : State} {a : Access} {off : Nat} {f : Fault} {rest : List Event}
    (hc : s.cfg.legal = true) (he : nextAccess s a rest) (ha : a.addr = s.cfg.base + off) (hoff : off < windowBytes)
    (hf : locateAccess s.cfg.words a.bits off = .error f) :
    step s = .next { s with events := rest, reply := some (.busError f) } := by
  rw [step_serve hc he ha hoff, serve_error (s := { s with events := rest }) _ hf]
  rfl

/-! ### The words of the window after an operand word is written -/

@[simp] theorem window_answer (a : BusReply) (s : State) (l : Loc) : (answer a s).window l = s.window l := by
  cases l <;> rfl

@[simp] theorem window_setReg_keyWord (s : State) (r : Reg) (v : Nat) (k : KeyReg) (i : Nat) :
    (s.setReg r v).window (.keyWord k i) = s.window (.keyWord k i) := rfl

theorem window_setReg_control (s : State) (r : Reg) (v : Nat) {l : Loc} (hl : l.isData = false) :
    (s.setReg r v).window l = s.window l := by
  cases l with
  | operand _ _ => cases hl
  | keyWord _ _ => cases hl
  | _ => rfl

theorem window_setReg_ne (s : State) {r q : Reg} (v i : Nat) (h : r ≠ q) :
    (s.setReg r v).window (.operand q i) = s.window (.operand q i) := by
  simp only [State.window, setReg_cfg, reg_setReg_ne _ _ h]

theorem window_setReg_self (s : State) (r : Reg) (v i : Nat) :
    (s.setReg r v).window (.operand r i) = slotWord s.cfg.width v i := by
  simp only [State.window, setReg_cfg, reg_setReg_self]

/-! ### The inputs on the way to the core, along a step -/

theorem answerable_congr {s t : State} (hc : t.cfg = s.cfg) (he : t.events = s.events) :
    t.answerable = s.answerable := by
  rw [State.answerable, State.answerable, hc, he]

theorem answerable_cons {s : State} {e : Event} {rest : List Event} (hs : s.answerable = true)
    (he : s.events = e :: rest) :
    e.inWindow s.cfg = true ∧ State.answerable { s with events := rest } = true := by
  simp only [State.answerable, he, List.all_cons, Bool.and_eq_true] at hs ⊢
  obtain ⟨hc, hw, hr⟩ := hs
  exact ⟨hw, hc, hr⟩

theorem readLoc_events (l : Loc) (s : State) : (readLoc l s).events = s.events := by
  rw [readLoc_frame]

theorem writeLoc_events {l : Loc} (v : Word) {s : State} (hl : l.ValidFor s.cfg.words) :
    (writeLoc l v s).events = s.events := by
  obtain hw | hw | ⟨-, hw | hw | ⟨r, j, -, hw⟩⟩ := writeLoc_cases v hl <;> rw [hw] <;> simp

theorem busAccess_events {a : Access} {s t : State} (h : busAccess a s = .next t) : t.events = s.events := by
  obtain ⟨-, e⟩ | ⟨f, e⟩ | ⟨l, -, e⟩ | ⟨l, v, hl, e⟩ := busAccess_cases a s <;> rw [e] at h <;> cases h
  · rfl
  · exact readLoc_events l s
  · exact writeLoc_events v hl

/-- An access of the window is answered, and takes no other input from its way. -/
theorem busAccess_answerable {a : Access} {s : State} (hs : s.answerable = true)
    (ha : (windowOffset s.cfg a.addr).isSome = true) : ∃ t, busAccess a s = .next t ∧ t.answerable = true := by
  obtain ⟨off, hoff⟩ := Option.isSome_iff_exists.1 ha
  have ht := busAccess_of_windowOffset hoff
  obtain ⟨-, -, -, hcfg⟩ := busAccess_frame ht
  exact ⟨_, ht, (answerable_congr hcfg (busAccess_events ht)).trans hs⟩

/-- A command completes with a next state of the same parameters and the same inputs on their way. -/
theorem exec_answerable (i : Instr) {s : State} (hs : s.answerable = true) :
    ∃ t, exec i s = .next t ∧ t.answerable = true := by
  obtain ⟨pos, -, ⟨c, e⟩ | e | ⟨rd, v, e, -⟩ | ⟨k, p, q, -, -, e⟩⟩ := exec_cases i s
  all_goals exact ⟨_, e, (answerable_congr rfl rfl).trans hs⟩

theorem engineTurn_answerable {s : State} (hs : s.answerable = true) :
    ∃ t, engineTurn s = .next t ∧ t.answerable = true := by
  obtain ⟨-, e⟩ | ⟨w, i, -, -, -, e⟩ | ⟨w, r, -, -, -, e⟩ := engineTurn_cases s <;> rw [e]
  · exact ⟨s, rfl, hs⟩
  · exact exec_answerable i hs
  · exact ⟨_, rfl, (answerable_congr rfl rfl).trans hs⟩

end

/-- Settles O10: whichever input is first, it is answered, and those after it stay in the window. -/
theorem answerableCoreNeverStops : Obligations.AnswerableCoreNeverStops := by
  intro s hs
  have hc : s.cfg.legal = true := by
    rw [State.answerable, Bool.and_eq_true] at hs
    exact hs.1
  cases he : s.events with
  | nil =>
    rw [step_idle hc he]
    exact engineTurn_answerable hs
  | cons e rest =>
    obtain ⟨hw, hr⟩ := answerable_cons hs he
    cases e with
    | access a =>
      rw [step_access hc he]
      exact busAccess_answerable hr hw
    | complete =>
      rw [step_complete hc he]
      exact engineTurn_answerable hr
    | reset => exact ⟨_, step_reset hc he, (answerable_congr rfl rfl).trans hr⟩

/-- Settles O22: the first three clauses are the read and the write of a data word of an idle core, and a
word from WW on is an unmapped offset. -/
theorem slotWordsOfAnIdleCore : Obligations.SlotWordsOfAnIdleCore := by
  intro s rest j hc hb hj
  refine ⟨fun r hjw he => ?_, fun k hjw he => ?_, fun r u hjw he => ?_, fun hjw n hn he => ?_⟩
  · rw [operand_addr] at he
    exact ⟨_, slotWord_toNat .., step_read_of_idle (l := .operand r j) hc hb hjw he⟩
  · rw [keyWord_addr] at he
    exact ⟨_, slotWord_toNat .., step_read_of_idle (l := .keyWord k j) hc hb hjw he⟩
  · rw [operand_addr] at he
    exact step_write_of_idle (l := .operand r j) hc hb rfl hjw he
  · rw [show s.cfg.base + 0x1000 + 0x400 * n + 4 * j = s.cfg.base + (0x1000 + 0x400 * n + 4 * j) by omega] at he
    have hoff : 0x1000 + 0x400 * n + 4 * j < windowBytes := by unfold windowBytes; omega
    have h4 : (0x1000 + 0x400 * n + 4 * j) % 4 = 0 := by omega
    have hnone : locate s.cfg.words (0x1000 + 0x400 * n + 4 * j) = none :=
      (locate_eq_none_iff h4 hoff).2 (.inr ⟨by omega, by unfold Config.words; omega⟩)
    exact step_busError hc he rfl hoff (locateAccess_unmapped h4 hnone)

/-- Settles O23: the write sets one word of one register, which the other words of the window do not see. -/
theorem writtenWordReadsBackAlone : Obligations.WrittenWordReadsBackAlone := by
  intro s t r j u rest hc hb hj he ht
  rw [operand_addr] at he
  rw [step_write_of_idle (l := .operand r j) hc hb rfl hj he] at ht
  cases ht
  simp only [window_answer, writeIdle]
  refine ⟨?_, fun q i hi hne => ?_, fun k i => rfl, fun l hl => ?_⟩
  · rw [window_setReg_self]
    exact slotWord_setSlotWord_self ..
  · by_cases hq : r = q
    · subst hq
      have hij : i ≠ j := fun h => hne (by rw [h])
      rw [window_setReg_self]
      exact slotWord_setSlotWord_ne _ u ((Config.legal_iff _).1 hc).1 hj hi hij
    · rw [window_setReg_ne _ _ _ hq]
      rfl
  · rw [window_setReg_control _ _ _ hl]
    cases l <;> rfl

/-- Settles O24: the invariant bounds the register by 2^W, and WW words of 32 bits make up W bits. -/
theorem registerIsTheSumOfItsWords : Obligations.RegisterIsTheSumOfItsWords :=
  fun _ r h => sum_slotWords ((Config.legal_iff _).1 h.config_legal).1 (h.reg_lt r)

/-- Settles O25: the three kinds of offset are those of the writable locations. -/
theorem writableLocationWrites : Obligations.WritableLocationWrites := by
  intro s v rest off hc he hoff
  split
  · next hb =>
    obtain rfl | rfl | ⟨r, j, hj, rfl⟩ := hoff
    · exact step_write_of_busy (l := .ctrl) hc hb rfl trivial he
    · exact step_write_of_busy (l := .config) hc hb rfl trivial he
    · exact step_write_of_busy (l := .operand r j) hc hb rfl hj he
  · next hb =>
    have hb : s.busy = false := by simpa using hb
    refine ⟨?_, ?_, ?_⟩
    · rintro rfl
      exact step_write_of_idle (l := .ctrl) hc hb rfl trivial he
    · rintro rfl
      exact ⟨_, bitlenOfWord_toNat v, step_write_of_idle (l := .config) hc hb rfl trivial he⟩
    · rintro r j hj rfl
      exact step_write_of_idle (l := .operand r j) hc hb rfl hj he

/-- Settles O26: the offsets are those of the locations that are not writable. -/
theorem readOnlyLocationWritesAreIgnored : Obligations.ReadOnlyLocationWritesAreIgnored := by
  intro s v rest off hc he hoff
  obtain rfl | rfl | rfl | rfl | ⟨k, j, hj, rfl⟩ := hoff
  · exact step_write_readOnly (l := .id) hc rfl trivial he
  · exact step_write_readOnly (l := .param) hc rfl trivial he
  · exact step_write_readOnly (l := .status) hc rfl trivial he
  · exact step_write_readOnly (l := .errcode) hc rfl trivial he
  · exact step_write_readOnly (l := .keyWord k j) hc rfl hj he

/-- Settles O27: the access is admitted exactly under the second clause's condition, and every other access
of the window is a bus error. -/
theorem busErrorsChangeNothing : Obligations.BusErrorsChangeNothing := by
  intro s a bits off rest hc hoff ha he
  obtain ⟨haddr, rfl⟩ : a.addr = s.cfg.base + off ∧ a.bits = bits := by
    obtain rfl | ⟨v, rfl⟩ := ha <;> exact ⟨rfl, rfl⟩
  have hok := locateAccess_isOk_iff (ww := s.cfg.words) (bits := a.bits) hoff
  simp only [Config.words] at hok
  cases hl : locateAccess (s.cfg.width / 32) a.bits off with
  | error f =>
    rw [hl] at hok
    refine ⟨fun _ => ⟨f, step_busError hc he haddr hoff hl⟩, fun h32 h4 hmap => ?_⟩
    cases hok.2 ⟨h32, h4, hmap⟩
  | ok l =>
    rw [hl] at hok
    obtain ⟨h32, h4, hmap⟩ := hok.1 rfl
    refine ⟨fun h => by omega, fun _ _ _ => ⟨_, step_serve hc he haddr hoff, ?_⟩⟩
    rw [serve_ok (s := { s with events := rest }) _ hl]
    exact perform_reply_ne_busError a l _

/-- Settles O28: such an address has no window offset. -/
theorem addressOutsideTheWindowIsRefused : Obligations.AddressOutsideTheWindowIsRefused := by
  intro s a rest hc he hout
  rw [step_access hc he]
  exact busAccess_outside ((windowOffset_eq_none_iff s.cfg a.addr).2 hout)

end Sys2Proof.Machine

/-! ## Command encoding (30_encoding.md): what decodes, and what becomes of a word that does not -/

namespace Sys2Proof

/-! ### The three answers of the decoder -/

/-- A word decodes to `i` exactly when its fields are those of `i`. -/
theorem decode_ok_iff {w : Word} {i : Instr} : decode w = .ok i ↔ Fields.ofWord w = i.fields := by
  refine ⟨fields_of_decode, fun h => ?_⟩
  rw [decode_of_fields h, checked, if_pos (row_of_fields h)]

theorem encode_of_decode {w : Word} {i : Instr} (h : decode w = .ok i) : encode i = w := by
  rw [encode, ← fields_of_decode h, Fields.toWord_ofWord]

theorem checked_ne_reservedOpcode (w mask mtch : Word) (i : Instr) :
    ¬ checked w mask mtch i = .error .reservedOpcode := by
  unfold checked
  split <;> simp

/-- The decoder answers `reservedOpcode` outside the rows of R95 alone: an assigned OP goes to `checked`. -/
theorem decode_eq_reservedOpcode_iff (w : Word) :
    decode w = .error .reservedOpcode ↔ 0x0C ≤ w.toNat % 64 := by
  obtain ⟨hop, -⟩ := Fields.ofWord_toNat w
  simp only [decode]
  split
  case h_13 =>
    simp only [imp_false, true_iff] at *
    omega
  all_goals exact iff_of_false (checked_ne_reservedOpcode _ _ _ _) (by omega)

/-- `malformed` is the third answer: neither a command nor a reserved opcode. -/
theorem decode_eq_malformed_iff (w : Word) :
    decode w = .error .malformed ↔ (¬ ∃ i, decode w = .ok i) ∧ ¬ decode w = .error .reservedOpcode := by
  cases decode w with
  | ok i => simp
  | error r => cases r <;> simp

/-! ### Well-formed fields are those of a command (R94, R95) -/

theorem Instr.fields_wellFormed (i : Instr) : i.fields.wellFormed = true := by
  cases i <;> rfl

@[simp] theorem fieldOk_used (v : BitVec 3) : fieldOk true v = true := rfl

@[simp] theorem fieldOk_unused (v : BitVec 3) : fieldOk false v = true ↔ v = 0 := by
  simp [fieldOk]

theorem op_eq_ofNat {op : BitVec 6} {k : Nat} (h : op.toNat = k) : op = BitVec.ofNat 6 k := by
  rw [← h, BitVec.ofNat_toNat, BitVec.setWidth_eq]

/-- The row of R95 names the command, and its used fields are the registers. -/
theorem exists_instr_of_wellFormed {f : Fields} (h : f.wellFormed = true) : ∃ i : Instr, f = i.fields := by
  obtain ⟨op, rd, rs1, rs2, rs3, rs4, rs5, rsv⟩ := f
  unfold Fields.wellFormed at h
  split at h
  · cases h
  next u hu =>
  simp only [fieldUse] at hu
  generalize hop : op.toNat = k at hu
  split at hu <;> cases hu
  all_goals
    simp only [Bool.and_eq_true, beq_iff_eq, fieldOk_used, fieldOk_unused, and_true] at h
    simp only [op_eq_ofNat hop, h]
  · exact ⟨.nop, rfl⟩
  · exact ⟨.modmul (toReg rd) (toReg rs1) (toReg rs2) (toReg rs3), by simp [Instr.fields, ofReg_toReg]⟩
  · exact ⟨.montmul (toReg rd) (toReg rs1) (toReg rs2) (toReg rs3), by simp [Instr.fields, ofReg_toReg]⟩
  · exact ⟨.modexp (toReg rd) (toReg rs1) (toReg rs2) (toReg rs3), by simp [Instr.fields, ofReg_toReg]⟩
  · exact ⟨.crtRecombine (toReg rd) (toReg rs1) (toReg rs2) (toReg rs3) (toReg rs4) (toReg rs5),
      by simp [Instr.fields, ofReg_toReg]⟩
  · exact ⟨.mrRound (toReg rd) (toReg rs1) (toReg rs2), by simp [Instr.fields, ofReg_toReg]⟩
  · exact ⟨.mrTest (toReg rd) (toReg rs1), by simp [Instr.fields, ofReg_toReg]⟩
  · exact ⟨.primegen (toReg rd), by simp [Instr.fields, ofReg_toReg]⟩
  · exact ⟨.keyderive (toReg rs1) (toReg rs2), by simp [Instr.fields, ofReg_toReg]⟩
  · exact ⟨.keygen, rfl⟩
  · exact ⟨.encBlock (toReg rd) (toReg rs1), by simp [Instr.fields, ofReg_toReg]⟩
  · exact ⟨.decBlock (toReg rd) (toReg rs1), by simp [Instr.fields, ofReg_toReg]⟩

theorem exists_decode_iff_wellFormed (w : Word) :
    (∃ i, decode w = .ok i) ↔ (Fields.ofWord w).wellFormed = true := by
  simp only [decode_ok_iff]
  constructor
  · rintro ⟨i, h⟩
    rw [h]
    exact i.fields_wellFormed
  · exact exists_instr_of_wellFormed

end Sys2Proof

namespace Sys2Proof.Machine

section
open Sys2Proof.Claims

/-! ### A word that is no command completes with E_BADCMD (R126) -/

theorem completeWord_of_error {w : Word} {r : Reject} (h : decode w = .error r) (s : State) :
    completeWord w s = .next (failsWith 5 s) := by
  simp only [completeWord, h]
  rfl

theorem completeWord_of_reservedOpcode {w : Word} (h : 0x0C ≤ w.toNat % 64) (s : State) :
    completeWord w s = .next (failsWith 5 s) :=
  completeWord_of_error ((decode_eq_reservedOpcode_iff w).2 h) s

/-- A completion event of a busy core completes the pending word (R122). -/
theorem step_complete_pending {s : State} {w : Word} {rest : List Event} (hc : s.cfg.legal = true)
    (hb : s.busy = true) (hp : s.pending = some w) (he : s.events = .complete :: rest) :
    step s = completeWord w { s with events := rest } := by
  rw [step_complete hc he]
  simp only [engineTurn, hb, hp]

end

/-- Settles O2: the fields of an instruction's word are the instruction's own. -/
theorem decodeOfEncodeIsTheInstruction : Obligations.DecodeOfEncodeIsTheInstruction :=
  fun i _ => decode_ok_iff.2 (Fields.ofWord_toWord i.fields)

/-- Settles O3: a word is made up of its fields, and those are the command's. -/
theorem decodedWordIsTheEncodingOfItsInstruction : Obligations.DecodedWordIsTheEncodingOfItsInstruction :=
  fun _ _ => encode_of_decode

/-- Settles O4: the third clause is the complement of the other two. -/
theorem decodeAcceptsExactlyTheWellFormedFields : Obligations.DecodeAcceptsExactlyTheWellFormedFields := by
  intro w
  refine ⟨exists_decode_iff_wellFormed w, decode_eq_reservedOpcode_iff w, ?_⟩
  rw [decode_eq_malformed_iff, exists_decode_iff_wellFormed, decode_eq_reservedOpcode_iff, not_le,
    Bool.not_eq_true, and_comm]

/-- Settles O5: the write to CTRL of an idle core is its acceptance, and the engine completes the pending word. -/
theorem reservedOpcodeCompletesWithBadCommand : Obligations.ReservedOpcodeCompletesWithBadCommand := by
  refine ⟨fun s w rest hc hb hw he => ?_, fun w => ?_⟩
  · refine ⟨_, step_write_of_idle (l := .ctrl) hc hb rfl trivial he, rfl, ?_⟩
    exact (step_complete_pending (s := answer .written (accept w { s with events := .complete :: rest }))
      hc rfl rfl rfl).trans (completeWord_of_reservedOpcode hw _)
  · cases h : decode w with
    | ok i => exact .inl ⟨i, rfl, encode_of_decode h⟩
    | error r => exact .inr (completeWord_of_error h)

/-- Settles O1: the two words with an assigned OP are malformed, the other two have a reserved OP. -/
theorem exampleWordsDecodeAsPrinted : Obligations.ExampleWordsDecodeAsPrinted := by
  refine ⟨by decide, by decide, by decide, by decide, by decide, by decide, by decide, by decide, by decide,
    by decide, by decide, by decide, by decide, fun w hw s => ?_⟩
  simp only [List.mem_cons, List.not_mem_nil, or_false] at hw
  obtain rfl | rfl | rfl | rfl := hw
  · exact completeWord_of_error (r := .malformed) (by decide) s
  · exact completeWord_of_error (r := .malformed) (by decide) s
  · exact completeWord_of_reservedOpcode (by decide) s
  · exact completeWord_of_reservedOpcode (by decide) s

/-- Settles O6: the spellings are evaluated, and a pseudo-command is defined as its command. -/
theorem assemblerSpellsCommandsAndPseudoCommands : Obligations.AssemblerSpellsCommandsAndPseudoCommands :=
  ⟨by decide, fun _ _ _ => rfl, fun _ _ _ => rfl, rfl⟩

end Sys2Proof.Machine

/-! ## Command lifecycle (40_control.md): the life of a command, and what it depends on and leaves alone -/

namespace Sys2Proof.Machine

section
open Sys2Proof.Claims

/-! ### The engine's turn (R122, R126) -/

theorem completeWord_of_ok {w : Word} {i : Instr} (h : decode w = .ok i) (s : State) :
    completeWord w s = exec i s := by
  simp only [completeWord, h]

/-- With no event on its way a busy core completes the pending word (log entry 4). -/
theorem step_idle_pending {s : State} {w : Word} (hc : s.cfg.legal = true) (hb : s.busy = true)
    (hp : s.pending = some w) (he : s.events = []) : step s = completeWord w s := by
  rw [step_idle hc he]
  simp only [engineTurn, hb, hp]

/-- The step after `withFetchWord` completes the word in the accepted state, whatever is on its way. -/
theorem step_withFetchWord {s : State} (w : Word) (hc : s.cfg.legal = true) :
    step (s.withFetchWord 32 w.toNat) = completeWord w (accepted w s) := by
  have hw : BitVec.ofNat 32 (w.toNat % 2 ^ 32) = w := by
    rw [Nat.mod_eq_of_lt w.isLt, BitVec.ofNat_toNat, BitVec.setWidth_eq]
  have hs : ({ accept w s with events := s.events } : State) = accepted w s := rfl
  rw [State.withFetchWord, hw]
  cases he : s.events with
  | nil =>
    rw [← hs, he]
    exact step_idle_pending hc rfl rfl rfl
  | cons e es =>
    rw [← hs, he]
    exact step_complete_pending hc rfl rfl rfl

/-! ### The rows of R95 -/

/-- A row whose words the decoder holds to the row's mask and match alone (R94, R126). -/
theorem encodedAs_of_decode {op : Nat} {mask mtch : Word} {i : Word → Instr}
    (h : ∀ w : Word, w.toNat % 64 = op → decode w = checked w mask mtch (i w)) : EncodedAs op mask mtch i := by
  intro w hw
  have hd := h w hw
  exact ⟨fun hm => hd.trans (if_pos hm), fun hm => completeWord_of_error (hd.trans (if_neg hm))⟩

theorem encodedAs_nop : EncodedAs 0x00 0xFFFFFFFF 0x00000000 (fun _ => .nop) :=
  encodedAs_of_decode fun w hw => by
    have hop : (Fields.ofWord w).op.toNat = 0 := (Fields.ofWord_toNat w).1.trans hw
    simp only [decode, hop]

end

/-- Settles O12: CTRL is writable, at offset 0x008. -/
theorem controlWriteAcceptsEveryWord : Obligations.ControlWriteAcceptsEveryWord := fun _ _ _ hc he =>
  ⟨fun hb => step_write_of_idle (l := .ctrl) hc hb rfl trivial he,
    fun hb => step_write_of_busy (l := .ctrl) hc hb rfl trivial he⟩

/-- Settles O13: on either turn the engine completes the pending word, which is `exec` of what it decodes to. -/
theorem stepRunsTheDecodedInstruction : Obligations.StepRunsTheDecodedInstruction := by
  intro s w i hc hb hp hd
  refine ⟨fun he => ?_, fun rest he => ?_⟩
  · exact (step_idle_pending hc hb hp he).trans (completeWord_of_ok hd s)
  · exact (step_complete_pending hc hb hp he).trans (completeWord_of_ok hd _)

/-- Settles O14: the fetched word is completed, and it decodes to the command it encodes. -/
theorem fetchedWordRunsNext : Obligations.FetchedWordRunsNext := fun _ i hc =>
  (step_withFetchWord (encode i) hc).trans
    (completeWord_of_ok (decode_ok_iff.2 (Fields.ofWord_toWord i.fields)) _)

/-- Settles O31: NOP's row has the one word 0, and NOP retires the accepted state as it is. -/
theorem nopOnlyClearsTheStatus : Obligations.NopOnlyClearsTheStatus :=
  ⟨encodedAs_nop, fun _ => ⟨rfl, rfl⟩⟩

/-- Settles O16: each of the four ends of a command retires, and writes none of the fields named here. -/
theorem everyCommandCompletes : Obligations.EveryCommandCompletes := by
  intro i s
  obtain ⟨pos, hpos, ⟨c, e⟩ | e | ⟨rd, v, e, -⟩ | ⟨k, p, q, -, -, e⟩⟩ := exec_cases i s <;>
    exact ⟨_, e, rfl, rfl, rfl, rfl, rfl, rfl, rfl, rfl, rfl, rfl, hpos⟩

end Sys2Proof.Machine

namespace Sys2Proof.Machine

section
open Sys2Proof.Claims

/-! ### What draws from the random source sees only the words it takes (R39) -/

/-- A rule that draws: from the stream and the position of its next word, its value and the position after
the words it took. -/
abbrev Draw (α : Type) := (Nat → Word) → Nat → α × Nat

/-- No word is taken. -/
def Draw.pure {α : Type} (a : α) : Draw α := fun _ pos => (a, pos)

/-- One draw after another, from the words after those of the first. -/
def Draw.bind {α β : Type} (g : Draw α) (h : α → Draw β) : Draw β :=
  fun stream pos => h (g stream pos).1 stream (g stream pos).2

/-- `k` words as one number (R11). -/
def Draw.words (k : Nat) : Draw Nat := fun stream pos => (rngWords stream k pos 0, pos + k)

/-- The value of a draw, and how many words it takes, are a function of the words it takes. -/
def Draw.Local {α : Type} (g : Draw α) : Prop :=
  ∀ (f f' : Nat → Word) (pos pos' : Nat), (∀ n, pos + n < (g f pos).2 → f (pos + n) = f' (pos' + n)) →
    ∃ k, (g f pos).2 = pos + k ∧ g f' pos' = ((g f pos).1, pos' + k)

theorem Draw.Local.pos_le {α : Type} {g : Draw α} (hg : g.Local) (f : Nat → Word) (pos : Nat) :
    pos ≤ (g f pos).2 := by
  obtain ⟨k, hk, -⟩ := hg f f pos pos fun _ _ => rfl
  omega

theorem Draw.Local.pure {α : Type} (a : α) : (Draw.pure a).Local := fun _ _ _ _ _ => ⟨0, rfl, rfl⟩

theorem Draw.Local.ite {α : Type} {g h : Draw α} (c : Prop) [Decidable c] (hg : g.Local) (hh : h.Local) :
    Draw.Local (if c then g else h) := by
  split
  · exact hg
  · exact hh

theorem Draw.Local.bind {α β : Type} {g : Draw α} {h : α → Draw β} (hg : g.Local) (hh : ∀ a, (h a).Local) :
    (g.bind h).Local := by
  intro f f' pos pos' hagree
  have hle := (hh (g f pos).1).pos_le f (g f pos).2
  obtain ⟨k, hk, hg'⟩ := hg f f' pos pos' fun n hn => hagree n (hn.trans_le hle)
  obtain ⟨m, hm, hh'⟩ := hh (g f pos).1 f f' (pos + k) (pos' + k) fun n hn => by
    rw [Nat.add_assoc, Nat.add_assoc]
    exact hagree (k + n) (by rwa [Draw.bind, hk, ← Nat.add_assoc])
  refine ⟨k + m, ?_, ?_⟩
  · rw [Draw.bind, hk, hm, Nat.add_assoc]
  · rw [Draw.bind, hg', hh', Draw.bind, hk, Nat.add_assoc]

theorem rngWords_congr {f f' : Nat → Word} {k : Nat} : ∀ {pos pos' : Nat} (r : Nat),
    (∀ n < k, f (pos + n) = f' (pos' + n)) → rngWords f k pos r = rngWords f' k pos' r := by
  induction k with
  | zero => exact fun _ _ => rfl
  | succ k ih =>
    intro pos pos' r h
    have h0 : f pos = f' pos' := h 0 (by omega)
    rw [rngWords, rngWords, h0]
    exact ih _ fun n hn => by simpa only [Nat.add_assoc, Nat.add_comm 1] using h (n + 1) (by omega)

theorem Draw.Local.words (k : Nat) : (Draw.words k).Local := by
  intro f f' pos pos' h
  have hr := rngWords_congr (f := f) (f' := f') (pos := pos) (pos' := pos') 0
    fun n hn => h n (Nat.add_lt_add_left hn pos)
  exact ⟨k, rfl, by rw [Draw.words, Draw.words, hr]⟩

theorem drawBase_local (n : Nat) : Draw.Local fun stream pos => (drawBase stream n pos, pos + baseWords n) :=
  (Draw.Local.words (baseWords n)).bind fun v => Draw.Local.pure (2 + v % (n - 3))

theorem mrRoundsFrom_local (n k : Nat) : Draw.Local fun stream => mrRoundsFrom stream n k := by
  induction k with
  | zero => exact Draw.Local.pure true
  | succ k ih =>
    have heq : (fun stream => mrRoundsFrom stream n (k + 1)) =
        Draw.bind (fun stream pos => (drawBase stream n pos, pos + baseWords n)) fun a =>
          if mrRound n a then fun stream => mrRoundsFrom stream n k else Draw.pure false := by
      funext stream pos
      simp only [mrRoundsFrom, Draw.bind, Draw.pure, ite_apply]
    rw [heq]
    exact (drawBase_local n).bind fun _ => ih.ite _ (Draw.Local.pure false)

theorem mrTest_local (n : Nat) : Draw.Local fun stream => mrTest stream n := by
  have heq : (fun stream => mrTest stream n) =
      if n < 2 then Draw.pure false else if n = 2 ∨ n = 3 then Draw.pure true
      else if n % 2 = 0 then Draw.pure false else fun stream => mrRoundsFrom stream n Config.mrRounds := by
    funext stream pos
    unfold mrTest
    split_ifs <;> rfl
  rw [heq]
  exact (Draw.Local.pure _).ite _ ((Draw.Local.pure _).ite _ ((Draw.Local.pure _).ite _ (mrRoundsFrom_local n _)))

theorem drawCandidate_local (l : Nat) :
    Draw.Local fun stream pos => (drawCandidate stream l pos, pos + candidateWords l) :=
  (Draw.Local.words (candidateWords l)).bind fun v =>
    Draw.Local.pure (forceBit (forceBit (v % 2 ^ l) (l - 1)) 0)

theorem primegenFrom_local (l k : Nat) : Draw.Local fun stream => primegenFrom stream l k := by
  induction k with
  | zero => exact Draw.Local.pure none
  | succ k ih =>
    have heq : (fun stream => primegenFrom stream l (k + 1)) =
        Draw.bind (fun stream pos => (drawCandidate stream l pos, pos + candidateWords l)) fun c =>
          Draw.bind (fun stream => mrTest stream c) fun passes =>
            if passes then Draw.pure (some c) else fun stream => primegenFrom stream l k := by
      funext stream pos
      simp only [primegenFrom, Draw.bind, Draw.pure, ite_apply]
    rw [heq]
    exact (drawCandidate_local l).bind fun c => (mrTest_local c).bind fun _ => (Draw.Local.pure _).ite _ ih

/-- KEYGEN's two searches (R148), `k` trials each. -/
def primePair (l k : Nat) : Draw (Option (Nat × Nat)) :=
  Draw.bind (fun stream => primegenFrom stream l k) fun
    | none => Draw.pure none
    | some p => Draw.bind (fun stream => primegenFrom stream l k) fun
      | none => Draw.pure none
      | some q => Draw.pure (some (p, q))

theorem drawPrimes_eq (c : Config) (l pos : Nat) : drawPrimes c l pos = primePair l (c.maxTrials l) c.stream pos := by
  simp only [drawPrimes, primegen, primePair, Draw.bind]
  cases (primegenFrom c.stream l (c.maxTrials l) pos).1 with
  | none => rfl
  | some p =>
    simp only [Draw.bind]
    cases (primegenFrom c.stream l (c.maxTrials l) (primegenFrom c.stream l (c.maxTrials l) pos).2).1 <;> rfl

theorem primePair_local (l k : Nat) : (primePair l k).Local :=
  (primegenFrom_local l k).bind fun
    | none => Draw.Local.pure none
    | some p => (primegenFrom_local l k).bind fun
      | none => Draw.Local.pure none
      | some q => Draw.Local.pure (some (p, q))

/-! ### How a command ends (R122) -/

/-- What a command's rule comes to: an error, or its destination writes. -/
inductive Ending where
  | error (c : ErrorCode)
  | nothing
  | write (rd : Reg) (v : Nat)
  | install (k : KeyBank)

/-- The completed state, with the words up to `pos` taken. -/
def Ending.state (pos : Nat) (s : State) : Ending → State
  | .error c => raiseError c (tookWords pos s)
  | .nothing => retire (tookWords pos s)
  | .write rd v => retire ((tookWords pos s).setReg rd v)
  | .install k => retire (Machine.install k (tookWords pos s))

/-- The endings a command admits: it writes its destination, and only two commands install a key. -/
def Ending.Of (i : Instr) : Ending → Prop
  | .error _ => True
  | .nothing => destination i = none
  | .write rd _ => destination i = some rd
  | .install _ => destination i = none ∧ installsKey i = true

@[simp] theorem Ending.state_rngPos (z : Ending) (pos : Nat) (s : State) : (z.state pos s).rngPos = pos := by
  cases z <;> rfl

/-- The completion step of a command whose rule is `g`. -/
def Draw.complete (g : Draw Ending) (s : State) : Result :=
  .next ((g s.cfg.stream s.rngPos).1.state (g s.cfg.stream s.rngPos).2 s)

/-- A rule of the command `i` (R121): its ending is one of `i`, and depends on the words it takes alone. -/
structure Draw.RuleOf (i : Instr) (g : Draw Ending) : Prop where
  isLocal : g.Local
  ending : ∀ stream pos, (g stream pos).1.Of i

theorem Draw.RuleOf.pure {i : Instr} {z : Ending} (hz : z.Of i) : (Draw.pure z).RuleOf i :=
  ⟨.pure z, fun _ _ => hz⟩

theorem Draw.RuleOf.bind {α : Type} {i : Instr} {g : Draw α} {h : α → Draw Ending} (hg : g.Local)
    (hh : ∀ a, (h a).RuleOf i) : (g.bind h).RuleOf i :=
  ⟨hg.bind fun a => (hh a).isLocal, fun _ _ => (hh _).ending _ _⟩

/-! ### The rule of a command: a function of its inputs and of the words it takes (R121, R124) -/

/-- Agreement on a command's inputs (R121) and on the parameters of R6. -/
structure SameInputs (i : Instr) (s s' : State) : Prop where
  width : s'.cfg.width = s.cfg.width
  eLimit : s'.cfg.eLimit = s.cfg.eLimit
  trialBounds : s'.cfg.trialBounds = s.cfg.trialBounds
  reg : ∀ r ∈ sources i, s'.reg r = s.reg r
  key : s'.key = s.key
  keyValid : s'.keyValid = s.keyValid
  bitlen : s'.configBitlen = s.configBitlen

theorem SameInputs.refl (i : Instr) (s : State) : SameInputs i s s :=
  ⟨rfl, rfl, rfl, fun _ _ => rfl, rfl, rfl, rfl⟩

/-- The end of KEYDERIVE and KEYGEN (R147). -/
def derivation (c : Config) (p q : Nat) : Ending :=
  match derive c p q with
  | .error x => .error x
  | .ok k => .install k

theorem derivation_of {i : Instr} (hd : destination i = none) (hi : installsKey i = true) (c : Config) (p q : Nat) :
    (derivation c p q).Of i := by
  unfold derivation
  split
  · trivial
  · exact ⟨hd, hi⟩

/-- Of the parameters, `derive` reads W and E_LIMIT (R146, R147). -/
theorem derivation_congr {c c' : Config} (hw : c'.width = c.width) (he : c'.eLimit = c.eLimit) :
    derivation c' = derivation c := by
  funext p q
  simp only [derivation, derive, selectE, hw, he]

theorem conclude_deriveAndInstall (s : State) (p q pos : Nat) :
    conclude (tookWords pos s) (deriveAndInstall p q (tookWords pos s)) = .next ((derivation s.cfg p q).state pos s) := by
  simp only [deriveAndInstall, derivation, tookWords_cfg]
  cases derive s.cfg p q <;> rfl

/-- The search of PRIMEGEN (R145), `k` trials. -/
def primegenRule (rd : Reg) (l k : Nat) : Draw Ending :=
  Draw.bind (fun stream => primegenFrom stream l k) fun
    | none => .pure (.error .generation)
    | some c => .pure (.write rd c)

theorem primegenRule_ruleOf (rd : Reg) (l k : Nat) : (primegenRule rd l k).RuleOf (.primegen rd) :=
  .bind (primegenFrom_local l k) fun
    | none => .pure trivial
    | some _ => .pure rfl

theorem execPrimegen_of_legal {s : State} (hl : bitlenLegal s = true) (rd : Reg) : execPrimegen rd s =
    (primegenRule rd s.configBitlen.toNat (s.cfg.maxTrials s.configBitlen.toNat)).complete s := by
  simp only [execPrimegen, if_pos hl, primegen, Draw.complete, primegenRule, Draw.bind]
  cases (primegenFrom s.cfg.stream s.configBitlen.toNat (s.cfg.maxTrials s.configBitlen.toNat) s.rngPos).1 <;> rfl

/-- The searches and the derivation of KEYGEN (R148), `k` trials each. -/
def keygenRule (c : Config) (l k : Nat) : Draw Ending :=
  Draw.bind (primePair l k) fun
    | none => .pure (.error .generation)
    | some pq => .pure (derivation c pq.1 pq.2)

theorem keygenRule_ruleOf (c : Config) (l k : Nat) : (keygenRule c l k).RuleOf .keygen :=
  .bind (primePair_local l k) fun
    | none => .pure trivial
    | some _ => .pure (derivation_of rfl rfl ..)

theorem keygenRule_congr {c c' : Config} (hw : c'.width = c.width) (he : c'.eLimit = c.eLimit) :
    keygenRule c' = keygenRule c := by
  funext l k
  simp only [keygenRule, derivation_congr hw he]

theorem execKeygen_of_legal {s : State} (hv : s.keyValid = false) (hl : bitlenLegal s = true) : execKeygen s =
    (keygenRule s.cfg s.configBitlen.toNat (s.cfg.maxTrials s.configBitlen.toNat)).complete s := by
  simp only [execKeygen, hv, if_pos hl, drawPrimes_eq, Draw.complete, keygenRule, Draw.bind]
  cases (primePair s.configBitlen.toNat (s.cfg.maxTrials s.configBitlen.toNat) s.cfg.stream s.rngPos).1 with
  | none => rfl
  | some pq => exact conclude_deriveAndInstall ..

/-- R124: a command has one rule in any two states that agree on its inputs. -/
theorem exec_rule {i : Instr} {s s' : State} (h : SameInputs i s s') :
    ∃ g : Draw Ending, g.RuleOf i ∧ exec i s = g.complete s ∧ exec i s' = g.complete s' := by
  have hr := h.reg
  have hk := h.key
  have hv := h.keyValid
  have hlegal : bitlenLegal s' = bitlenLegal s := by simp only [bitlenLegal, h.bitlen, h.width]
  have htrials : s'.cfg.maxTrials s.configBitlen.toNat = s.cfg.maxTrials s.configBitlen.toNat := by
    simp only [Config.maxTrials, h.trialBounds]
  cases i with
  | nop => exact ⟨.pure .nothing, .pure rfl, rfl, rfl⟩
  | modmul rd a b n =>
    simp only [sources, List.forall_mem_cons] at hr
    simp only [exec, execModmul, hr]
    split
    · exact ⟨.pure (.error .modulus), .pure trivial, rfl, rfl⟩
    · exact ⟨.pure (.write rd _), .pure rfl, rfl, rfl⟩
  | montmul rd a b n =>
    simp only [sources, List.forall_mem_cons] at hr
    simp only [exec, execMontmul, hr]
    split
    · exact ⟨.pure (.error .modulus), .pure trivial, rfl, rfl⟩
    · split
      · exact ⟨.pure (.error .operand), .pure trivial, rfl, rfl⟩
      · exact ⟨.pure (.write rd _), .pure rfl, rfl, rfl⟩
  | modexp rd b x m =>
    simp only [sources, List.forall_mem_cons] at hr
    simp only [exec, execModexp, hr]
    split
    · exact ⟨.pure (.error .modulus), .pure trivial, rfl, rfl⟩
    · exact ⟨.pure (.write rd _), .pure rfl, rfl, rfl⟩
  | crtRecombine rd mp mq p q qi =>
    simp only [sources, List.forall_mem_cons] at hr
    simp only [exec, execCrtRecombine, hr, h.width]
    split
    · exact ⟨.pure (.error .modulus), .pure trivial, rfl, rfl⟩
    · split
      · exact ⟨.pure (.error .overflow), .pure trivial, rfl, rfl⟩
      · exact ⟨.pure (.write rd _), .pure rfl, rfl, rfl⟩
  | mrRound rd n a =>
    simp only [sources, List.forall_mem_cons] at hr
    simp only [exec, execMrRound, hr]
    split
    · exact ⟨.pure (.error .operand), .pure trivial, rfl, rfl⟩
    · split
      · exact ⟨.pure (.error .operand), .pure trivial, rfl, rfl⟩
      · exact ⟨.pure (.write rd _), .pure rfl, rfl, rfl⟩
  | keyderive p q =>
    simp only [sources, List.forall_mem_cons] at hr
    simp only [exec, execKeyderive, hr, hv]
    split
    · exact ⟨.pure (.error .keyLocked), .pure trivial, rfl, rfl⟩
    · refine ⟨.pure (derivation s.cfg (s.reg p) (s.reg q)), .pure (derivation_of rfl rfl ..),
        conclude_deriveAndInstall s _ _ s.rngPos, ?_⟩
      rw [← derivation_congr h.width h.eLimit]
      exact conclude_deriveAndInstall s' _ _ s'.rngPos
  | encBlock rd m =>
    simp only [sources, List.forall_mem_cons] at hr
    simp only [exec, execEncBlock, hr, hk, hv]
    split
    · exact ⟨.pure (.error .noKey), .pure trivial, rfl, rfl⟩
    · split
      · exact ⟨.pure (.error .blockTooLarge), .pure trivial, rfl, rfl⟩
      · exact ⟨.pure (.write rd _), .pure rfl, rfl, rfl⟩
  | decBlock rd c =>
    simp only [sources, List.forall_mem_cons] at hr
    simp only [exec, execDecBlock, hr, hk, hv]
    split
    · exact ⟨.pure (.error .noKey), .pure trivial, rfl, rfl⟩
    · split
      · exact ⟨.pure (.error .decryption), .pure trivial, rfl, rfl⟩
      · exact ⟨.pure (.write rd _), .pure rfl, rfl, rfl⟩
  | mrTest rd n =>
    simp only [sources, List.forall_mem_cons] at hr
    simp only [exec, execMrTest, hr]
    exact ⟨.bind (fun stream => mrTest stream (s.reg n)) fun passes => .pure (.write rd passes.toNat),
      .bind (mrTest_local _) fun _ => .pure rfl, rfl, rfl⟩
  | primegen rd =>
    simp only [exec]
    by_cases hl : bitlenLegal s = true
    · rw [execPrimegen_of_legal hl, execPrimegen_of_legal (hlegal.trans hl), h.bitlen, htrials]
      exact ⟨_, primegenRule_ruleOf .., rfl, rfl⟩
    · simp only [execPrimegen, hlegal, if_neg hl]
      exact ⟨.pure (.error .config), .pure trivial, rfl, rfl⟩
  | keygen =>
    simp only [exec]
    by_cases hk : s.keyValid = true
    · simp only [execKeygen, hv, if_pos hk]
      exact ⟨.pure (.error .keyLocked), .pure trivial, rfl, rfl⟩
    by_cases hl : bitlenLegal s = true
    · have hk : s.keyValid = false := by simpa using hk
      rw [execKeygen_of_legal hk hl, execKeygen_of_legal (hv.trans hk) (hlegal.trans hl), h.bitlen, htrials,
        keygenRule_congr h.width h.eLimit]
      exact ⟨_, keygenRule_ruleOf .., rfl, rfl⟩
    · simp only [execKeygen, hv, if_neg hk, hlegal, if_neg hl]
      exact ⟨.pure (.error .config), .pure trivial, rfl, rfl⟩

/-- Agreement on the words a run takes, for the commands that take any, is agreement on all it takes. -/
theorem sameWords_of_exec {i : Instr} {s s' t : State} (ht : exec i s = .next t)
    (hw : usesRandom i = true → ∀ t, exec i s = .next t → ∀ n, s.rngPos + n < t.rngPos →
      s.cfg.stream (s.rngPos + n) = s'.cfg.stream (s'.rngPos + n))
    (n : Nat) (hn : s.rngPos + n < t.rngPos) : s.cfg.stream (s.rngPos + n) = s'.cfg.stream (s'.rngPos + n) := by
  cases hu : usesRandom i with
  | true => exact hw hu t ht n hn
  | false =>
    have := exec_rngPos_of_not_usesRandom hu ht
    omega

/-! ### The frames of the commands -/

/-- The endings of a command, from any state. -/
theorem exec_ending (i : Instr) (s : State) : ∃ (z : Ending) (pos : Nat), z.Of i ∧ exec i s = .next (z.state pos s) := by
  obtain ⟨g, hg, e, -⟩ := exec_rule (SameInputs.refl i s)
  exact ⟨_, _, hg.ending _ _, e⟩

/-- A word of the window, but for STATUS and ERRCODE, is a function of these fields (R31 to R34, R61). -/
theorem window_congr {s t : State} {l : Loc} (hcfg : t.cfg = s.cfg) (hctrl : t.ctrl = s.ctrl)
    (hbitlen : t.configBitlen = s.configBitlen) (hstatus : l ≠ .status) (herrcode : l ≠ .errcode)
    (hreg : ∀ r j, l = .operand r j → t.reg r = s.reg r) (hkey : ∀ k j, l = .keyWord k j → t.key = s.key) :
    t.window l = s.window l := by
  cases l with
  | id => rfl
  | param => simp only [State.window, hcfg]
  | ctrl => exact hctrl
  | status => exact absurd rfl hstatus
  | errcode => exact absurd rfl herrcode
  | config => simp only [State.window, configWord, hbitlen]
  | operand r j => simp only [State.window, hcfg, hreg r j rfl]
  | keyWord k j => simp only [State.window, hcfg, hkey k j rfl]

end

/-- Settles O20: the rule that both runs have in common sees the same words. -/
theorem outcomeDependsOnInputsOnly : Obligations.OutcomeDependsOnInputsOnly := by
  intro i s s' hwidth hlimit htrials hreg hkey hvalid hbitlen herr herr' hcode hcode' hw
  obtain ⟨g, hg, e, e'⟩ := exec_rule (i := i) (s := s) (s' := s') ⟨hwidth.symm, hlimit.symm, htrials.symm,
    fun r hr => (hreg r hr).symm, hkey.symm, hvalid.symm, hbitlen.symm⟩
  obtain ⟨taken, ht, ht'⟩ := hg.isLocal s.cfg.stream s'.cfg.stream s.rngPos s'.rngPos fun n hn =>
    sameWords_of_exec e hw n (by rwa [Ending.state_rngPos])
  have hz := hg.ending s.cfg.stream s.rngPos
  rw [Draw.complete, ht] at e
  rw [Draw.complete, ht'] at e'
  have hnone : Claims.usesRandom i = false → taken = 0 := fun hu => by
    simpa using exec_rngPos_of_not_usesRandom hu e
  generalize (g s.cfg.stream s.rngPos).1 = z at *
  refine ⟨_, _, taken, e, e', ?_⟩
  cases z with
  | error c => exact ⟨rfl, rfl, hkey, hvalid, nofun, rfl, rfl, hnone⟩
  | nothing =>
    exact ⟨herr.trans herr'.symm, hcode.trans hcode'.symm, hkey, hvalid, fun _ rd hd => absurd (hz.symm.trans hd) nofun,
      rfl, rfl, hnone⟩
  | write rd v =>
    refine ⟨herr.trans herr'.symm, hcode.trans hcode'.symm, hkey, hvalid, fun _ q hd => ?_, rfl, rfl, hnone⟩
    obtain rfl : rd = q := Option.some.inj (hz.symm.trans hd)
    simp [Ending.state]
  | install k =>
    exact ⟨herr.trans herr'.symm, hcode.trans hcode'.symm, rfl, rfl, fun _ rd hd => absurd (hz.1.symm.trans hd) nofun,
      rfl, rfl, hnone⟩

/-- Settles O55: such a command ends with an error or with the write of its destination. -/
theorem registerCommandsChangeOnlyTheirDestination : Obligations.RegisterCommandsChangeOnlyTheirDestination := by
  intro i rd s t hd ht
  have hpos : Claims.usesRandom i = false → t.rngPos = s.rngPos := fun hu => exec_rngPos_of_not_usesRandom hu ht
  obtain ⟨z, pos, hz, e⟩ := exec_ending i s
  rw [e] at ht
  cases ht
  cases z with
  | error c =>
    exact ⟨fun _ _ => rfl, rfl, rfl, rfl, rfl, rfl, rfl, hpos, .inr ⟨rfl, code_ne_zero c, rfl⟩,
      fun l hs he _ => window_congr rfl rfl rfl hs he (fun _ _ _ => rfl) (fun _ _ _ => rfl)⟩
  | nothing => simp [Ending.Of, hd] at hz
  | install k => simp [Ending.Of, hd] at hz
  | write q v =>
    obtain rfl : rd = q := by simpa [Ending.Of, hd] using hz
    have hreg : ∀ r : Reg, r ≠ rd → ((tookWords pos s).setReg rd v).reg r = s.reg r :=
      fun r hr => reg_setReg_ne _ v hr.symm
    refine ⟨hreg, rfl, rfl, rfl, rfl, rfl, rfl, hpos, .inl ⟨rfl, rfl⟩, fun l hs he hl =>
      window_congr rfl rfl rfl hs he (fun r j h => hreg r ?_) (fun _ _ _ => rfl)⟩
    rintro rfl
    exact hl j h

/-- Settles O56: such a command ends with an error, with nothing, or with the installation of a key. -/
theorem otherCommandsWriteNoOperandRegister : Obligations.OtherCommandsWriteNoOperandRegister := by
  intro i s t hd ht
  have hpos : Claims.usesRandom i = false → t.rngPos = s.rngPos := fun hu => exec_rngPos_of_not_usesRandom hu ht
  obtain ⟨z, pos, hz, e⟩ := exec_ending i s
  rw [e] at ht
  cases ht
  cases z with
  | error c =>
    exact ⟨rfl, rfl, rfl, rfl, rfl, hpos, fun _ => ⟨rfl, rfl⟩, .inr ⟨rfl, code_ne_zero c, rfl, rfl⟩,
      fun l hs he _ => window_congr rfl rfl rfl hs he (fun _ _ _ => rfl) (fun _ _ _ => rfl)⟩
  | nothing =>
    exact ⟨rfl, rfl, rfl, rfl, rfl, hpos, fun _ => ⟨rfl, rfl⟩, .inl ⟨rfl, rfl⟩,
      fun l hs he _ => window_congr rfl rfl rfl hs he (fun _ _ _ => rfl) (fun _ _ _ => rfl)⟩
  | write q v => simp [Ending.Of, hd] at hz
  | install k =>
    exact ⟨rfl, rfl, rfl, rfl, rfl, hpos, fun hi => absurd hz.2 (by simp [hi]), .inl ⟨rfl, rfl⟩,
      fun l hs he hl => window_congr rfl rfl rfl hs he (fun _ _ _ => rfl) (fun k j h => absurd h (hl k j))⟩

end Sys2Proof.Machine

/-! ## Key generation (41_keygen.md): the Miller-Rabin round and the test of its drawn bases -/

namespace Sys2Proof.Machine

section
open Sys2Proof.Claims

/-! ### The rows of R95 with register fields -/

theorem op_ofWord {w : Word} {op : Nat} (h : w.toNat % 64 = op) : (Fields.ofWord w).op.toNat = op :=
  (Fields.ofWord_toNat w).1.trans h

theorem toReg_extractLsb' (w : Word) (k : Nat) : toReg (w.extractLsb' k 3) = field w k :=
  Fin.ext (extract_toNat w k 3)

theorem toReg_rd (w : Word) : toReg (Fields.ofWord w).rd = field w 6 := toReg_extractLsb' w 6

theorem toReg_rs1 (w : Word) : toReg (Fields.ofWord w).rs1 = field w 9 := toReg_extractLsb' w 9

theorem toReg_rs2 (w : Word) : toReg (Fields.ofWord w).rs2 = field w 12 := toReg_extractLsb' w 12

theorem encodedAs_mrRound :
    EncodedAs 0x05 0xFFFF803F 0x00000005 (fun w => .mrRound (field w 6) (field w 9) (field w 12)) :=
  encodedAs_of_decode fun w hw => by simp only [decode, op_ofWord hw, toReg_rd, toReg_rs1, toReg_rs2]

theorem encodedAs_mrTest : EncodedAs 0x06 0xFFFFF03F 0x00000006 (fun w => .mrTest (field w 6) (field w 9)) :=
  encodedAs_of_decode fun w hw => by simp only [decode, op_ofWord hw, toReg_rd, toReg_rs1]

theorem encodedAs_primegen : EncodedAs 0x07 0xFFFFFE3F 0x00000007 (fun w => .primegen (field w 6)) :=
  encodedAs_of_decode fun w hw => by simp only [decode, op_ofWord hw, toReg_rd]

theorem encodedAs_keyderive :
    EncodedAs 0x08 0xFFFF81FF 0x00000008 (fun w => .keyderive (field w 9) (field w 12)) :=
  encodedAs_of_decode fun w hw => by simp only [decode, op_ofWord hw, toReg_rs1, toReg_rs2]

theorem encodedAs_keygen : EncodedAs 0x09 0xFFFFFFFF 0x00000009 (fun _ => .keygen) :=
  encodedAs_of_decode fun w hw => by simp only [decode, op_ofWord hw]

/-! ### The Miller-Rabin round (R140) -/

/-- The loop of R140 finds the one decomposition 2^s * t with t odd. -/
theorem splitTwos_two_pow_mul {t : Nat} (ht : t % 2 = 1) : ∀ (s fuel c : Nat), 2 ^ s * t < 2 ^ fuel →
    splitTwos fuel (2 ^ s * t) c = (t, c + s) := by
  intro s
  induction s with
  | zero =>
    intro fuel c h
    cases fuel with
    | zero => omega
    | succ fuel => simp [splitTwos, ht]
  | succ s ih =>
    intro fuel c h
    have hdouble : 2 ^ (s + 1) * t = 2 * (2 ^ s * t) := by ring
    rw [hdouble] at h ⊢
    cases fuel with
    | zero => have : 0 < 2 ^ s * t := Nat.mul_pos (by positivity) (by omega); omega
    | succ fuel =>
      rw [splitTwos, if_pos (by omega), Nat.mul_div_cancel_left _ (by omega), ih fuel (c + 1) (by omega)]
      simp only [Nat.add_assoc, Nat.add_comm 1]

theorem exists_two_pow_mul_odd {m : Nat} (hm : 0 < m) : ∃ s t, m = 2 ^ s * t ∧ t % 2 = 1 := by
  obtain ⟨hodd, -, heq⟩ := splitTwos_spec (bitlen m) m 0 hm (lt_two_pow_bitlen m)
  exact ⟨_, _, by rw [mul_comm]; exact heq.symm, hodd⟩

theorem mrSquares_iff {n : Nat} (k x : Nat) :
    mrSquares n k x = true ↔ ∃ j, 0 < j ∧ j ≤ k ∧ x ^ 2 ^ j % n = n - 1 := by
  refine ⟨mrSquares_true k x, ?_⟩
  induction k generalizing x with
  | zero => rintro ⟨j, h0, hj, -⟩; omega
  | succ k ih =>
    rintro ⟨j, h0, hj, he⟩
    simp only [mrSquares]
    split
    · rfl
    · next hsq =>
      obtain ⟨i, rfl⟩ : ∃ i, j = i + 1 := ⟨j - 1, by omega⟩
      rw [pow_succ', pow_mul, sq, Nat.pow_mod] at he
      refine ih _ ⟨i, Nat.pos_of_ne_zero fun hi => hsq ?_, by omega, he⟩
      simpa [hi] using he

/-- R140 for the decomposition n - 1 = 2^s * t. -/
theorem mrRound_iff {n a s t : Nat} (hn : 5 ≤ n) (hodd : n % 2 = 1) (h : n - 1 = 2 ^ s * t) (ht : t % 2 = 1) :
    mrRound n a = true ↔ a ^ t % n = 1 ∨ ∃ j < s, a ^ (2 ^ j * t) % n = n - 1 := by
  have hsplit : splitTwos (bitlen n) (n - 1) 0 = (t, s) := by
    have hlt := lt_two_pow_bitlen n
    rw [h, splitTwos_two_pow_mul ht s _ 0 (by omega), Nat.zero_add]
  have hs : 0 < s := Nat.pos_of_ne_zero fun hs => by simp only [hs, pow_zero, one_mul] at h; omega
  have hpow : ∀ j, (a ^ t % n) ^ 2 ^ j % n = a ^ (2 ^ j * t) % n := fun j => by
    rw [← Nat.pow_mod, ← pow_mul, mul_comm]
  simp only [mrRound, hsplit, modexp_eq_pow a t (show 1 < n by omega)]
  split
  · next hx =>
    refine iff_of_true rfl (hx.imp_right fun hx => ⟨0, hs, ?_⟩)
    rwa [pow_zero, one_mul]
  · next hx =>
    obtain ⟨hx1, hx0⟩ := not_or.1 hx
    rw [mrSquares_iff, or_iff_right hx1]
    simp only [hpow]
    constructor
    · rintro ⟨j, -, hj, he⟩
      exact ⟨j, by omega, he⟩
    · rintro ⟨j, hj, he⟩
      refine ⟨j, Nat.pos_of_ne_zero fun h0 => hx0 ?_, by omega, he⟩
      rwa [h0, pow_zero, one_mul] at he

theorem mrRound_iff_strongProbablePrime {n : Nat} (a : Nat) (hn : 5 ≤ n) (hodd : n % 2 = 1) :
    mrRound n a = true ↔ StrongProbablePrime n a := by
  constructor
  · intro h
    obtain ⟨s, t, hst, ht⟩ := exists_two_pow_mul_odd (show 0 < n - 1 by omega)
    exact ⟨s, t, hst, ht, (mrRound_iff hn hodd hst ht).1 h⟩
  · rintro ⟨s, t, hst, ht, h⟩
    exact (mrRound_iff hn hodd hst ht).2 h

/-- The square roots of 1 modulo a prime are 1 and -1, so the chain of squarings that ends in 1 is 1 from its
start or meets -1. -/
theorem eq_one_or_exists_eq_neg_one {n : Nat} [Fact n.Prime] (b : ZMod n) :
    ∀ s, b ^ 2 ^ s = 1 → b = 1 ∨ ∃ j < s, b ^ 2 ^ j = -1 := by
  intro s
  induction s with
  | zero => intro h; exact .inl (by simpa using h)
  | succ s ih =>
    intro h
    rw [pow_succ, pow_mul, sq, mul_self_eq_one_iff] at h
    rcases h with h | h
    · exact (ih h).imp_right fun ⟨j, hj, he⟩ => ⟨j, by omega, he⟩
    · exact .inr ⟨s, by omega, h⟩

theorem mod_eq_of_cast_eq {n x r : Nat} (hr : r < n) (h : (x : ZMod n) = r) : x % n = r := by
  rwa [ZMod.natCast_eq_natCast_iff', Nat.mod_eq_of_lt hr] at h

/-- Fermat's little theorem ends the chain of a prime in 1. -/
theorem strongProbablePrime_of_prime {n a : Nat} (hp : n.Prime) (ha : 0 < a) (han : a < n) :
    StrongProbablePrime n a := by
  have := Fact.mk hp
  have hn := hp.one_lt
  obtain ⟨s, t, hst, ht⟩ := exists_two_pow_mul_odd (show 0 < n - 1 by omega)
  have hfermat : ((a : ZMod n) ^ t) ^ 2 ^ s = 1 := by
    rw [← pow_mul, mul_comm t, ← hst]
    refine ZMod.pow_card_sub_one_eq_one fun h0 => ?_
    exact absurd (Nat.le_of_dvd ha ((ZMod.natCast_eq_zero_iff a n).1 h0)) (by omega)
  have hcast : ((n - 1 : Nat) : ZMod n) = -1 := by simp [Nat.cast_sub hn.le]
  refine ⟨s, t, hst, ht, (eq_one_or_exists_eq_neg_one _ s hfermat).imp (fun h => ?_) fun ⟨j, hj, h⟩ => ⟨j, hj, ?_⟩⟩
  · exact mod_eq_of_cast_eq hn (by rw [Nat.cast_pow, h, Nat.cast_one])
  · exact mod_eq_of_cast_eq (by omega) (by rw [Nat.cast_pow, mul_comm, pow_mul, h, hcast])

theorem odd_of_prime {n : Nat} (hp : n.Prime) (hn : 5 ≤ n) : n % 2 = 1 :=
  hp.eq_two_or_odd.resolve_left (by omega)

theorem mrRound_of_prime {n a : Nat} (hp : n.Prime) (hn : 5 ≤ n) (ha : 2 ≤ a) (han : a ≤ n - 2) :
    mrRound n a = true :=
  (mrRound_iff_strongProbablePrime a hn (odd_of_prime hp hn)).2
    (strongProbablePrime_of_prime hp (by omega) (by omega))

/-! ### The ends of MR_ROUND and MR_TEST -/

theorem exec_mrRound_refused {s : State} {n a : Reg} (rd : Reg)
    (h : s.reg n < 5 ∨ s.reg n % 2 = 0 ∨ s.reg a < 2 ∨ s.reg n - 2 < s.reg a) :
    exec (.mrRound rd n a) s = .next (failsWith 7 s) := by
  simp only [exec, execMrRound]
  split
  · rfl
  · split
    · rfl
    · omega

theorem exec_mrRound_admitted {s : State} {n a : Reg} (rd : Reg) (hn : 5 ≤ s.reg n) (hodd : s.reg n % 2 = 1)
    (ha : 2 ≤ s.reg a) (han : s.reg a ≤ s.reg n - 2) :
    exec (.mrRound rd n a) s = .next (succeeds (writes s rd (mrRound (s.reg n) (s.reg a)).toNat)) := by
  simp only [exec, execMrRound]
  rw [if_neg (by omega), if_neg (by omega)]
  rfl

theorem exec_mrTest {s : State} {n : Reg} {passes : Bool} {pos : Nat} (rd : Reg)
    (h : mrTest s.cfg.stream (s.reg n) s.rngPos = (passes, pos)) :
    exec (.mrTest rd n) s = .next (succeeds (writes (takes s pos) rd passes.toNat)) := by
  simp only [exec, execMrTest, h]
  rfl

/-! ### The draws of R142 to R144 -/

/-- The words of a draw as one sum, after the value `r` of those before them (R11). -/
theorem rngWords_eq (stream : Nat → Word) : ∀ k pos r : Nat,
    rngWords stream k pos r = r * 2 ^ (32 * k) + wordsValue stream pos k := by
  intro k
  induction k with
  | zero => intro pos r; simp [rngWords, wordsValue]
  | succ k ih =>
    intro pos r
    have hsum : wordsValue stream pos (k + 1)
        = wordsValue stream (pos + 1) k + (stream pos).toNat * 2 ^ (32 * k) := by
      rw [wordsValue, Finset.sum_range_succ', wordsValue]
      congr 1
      refine Finset.sum_congr rfl fun j _ => ?_
      rw [show pos + (j + 1) = pos + 1 + j by omega, show k + 1 - 1 - (j + 1) = k - 1 - j by omega]
    rw [rngWords, ih, hsum]
    ring

theorem rngWords_zero (stream : Nat → Word) (k pos : Nat) : rngWords stream k pos 0 = wordsValue stream pos k := by
  rw [rngWords_eq, Nat.zero_mul, Nat.zero_add]

theorem baseWords_eq (n : Nat) : baseWords n = baseCount n := rfl

theorem drawBase_eq_baseAt (stream : Nat → Word) (n pos i : Nat) :
    drawBase stream n (pos + i * baseWords n) = baseAt stream n pos i := by
  rw [drawBase, rngWords_zero, baseWords_eq, baseAt]

/-! ### The rounds of MR_TEST (R143) -/

/-- After `i` passing rounds the test goes on with the words behind theirs. -/
theorem mrRoundsFrom_skip {stream : Nat → Word} {n pos : Nat} : ∀ i k : Nat,
    (∀ j < i, mrRound n (baseAt stream n pos j) = true) →
    mrRoundsFrom stream n (i + k) pos = mrRoundsFrom stream n k (pos + i * baseCount n) := by
  intro i
  induction i with
  | zero => intro k _; simp
  | succ i ih =>
    intro k h
    have hi : mrRound n (drawBase stream n (pos + i * baseCount n)) = true := by
      rw [← baseWords_eq, drawBase_eq_baseAt]
      exact h i (by omega)
    rw [Nat.add_right_comm, Nat.add_assoc, ih (k + 1) fun j hj => h j (by omega), mrRoundsFrom, if_pos hi,
      baseWords_eq, Nat.succ_mul, Nat.add_assoc]

theorem mrRoundsFrom_of_all_pass {stream : Nat → Word} {n pos k : Nat}
    (h : ∀ i < k, mrRound n (baseAt stream n pos i) = true) :
    mrRoundsFrom stream n k pos = (true, pos + k * baseCount n) :=
  mrRoundsFrom_skip k 0 h

theorem mrRoundsFrom_of_first_witness {stream : Nat → Word} {n pos k i : Nat} (hi : i < k)
    (hfail : mrRound n (baseAt stream n pos i) = false) (h : ∀ j < i, mrRound n (baseAt stream n pos j) = true) :
    mrRoundsFrom stream n k pos = (false, pos + (i + 1) * baseCount n) := by
  obtain ⟨m, rfl⟩ : ∃ m, k = i + (m + 1) := ⟨k - i - 1, by omega⟩
  rw [mrRoundsFrom_skip i (m + 1) h, mrRoundsFrom, ← baseWords_eq, drawBase_eq_baseAt, hfail,
    if_neg Bool.false_ne_true, Nat.succ_mul, Nat.add_assoc]

theorem mrTest_of_lt_two {n : Nat} (h : n < 2) (stream : Nat → Word) (pos : Nat) :
    mrTest stream n pos = (false, pos) := by
  rw [mrTest, if_pos h]

theorem mrTest_two_or_three {n : Nat} (h : n = 2 ∨ n = 3) (stream : Nat → Word) (pos : Nat) :
    mrTest stream n pos = (true, pos) := by
  rw [mrTest, if_neg (by omega), if_pos h]

theorem mrTest_of_even {n : Nat} (h : 4 ≤ n) (heven : n % 2 = 0) (stream : Nat → Word) (pos : Nat) :
    mrTest stream n pos = (false, pos) := by
  rw [mrTest, if_neg (by omega), if_neg (by omega), if_pos heven]

theorem mrTest_of_odd {n : Nat} (h : 5 ≤ n) (hodd : n % 2 = 1) (stream : Nat → Word) (pos : Nat) :
    mrTest stream n pos = mrRoundsFrom stream n 50 pos := by
  rw [mrTest, if_neg (by omega), if_neg (by omega), if_neg (by omega), Config.mrRounds]

theorem baseAt_range (stream : Nat → Word) {n : Nat} (hn : 5 ≤ n) (pos i : Nat) :
    2 ≤ baseAt stream n pos i ∧ baseAt stream n pos i ≤ n - 2 := by
  rw [← drawBase_eq_baseAt]
  exact drawBase_range stream hn _

end

/-- Settles O40: the round is the test of the one decomposition n - 1 = 2^s * t with t odd. -/
theorem mrRoundTellsStrongProbablePrimes : Obligations.MrRoundTellsStrongProbablePrimes := by
  refine ⟨encodedAs_mrRound, fun s rd n a => ⟨exec_mrRound_refused rd, fun hn hodd ha han => ?_⟩⟩
  rw [exec_mrRound_admitted rd hn hodd ha han, ← mrRound_iff_strongProbablePrime _ hn hodd]
  refine ⟨fun h => by rw [h]; rfl, fun h => ?_⟩
  rw [Bool.eq_false_of_not_eq_true h]
  rfl

/-- Settles O41: a prime is a strong probable prime to every base below it. -/
theorem primesPassEveryMillerRabinRound : Obligations.PrimesPassEveryMillerRabinRound := by
  intro s rd n a hp hn ha han
  rw [exec_mrRound_admitted rd hn (odd_of_prime hp hn) ha han, mrRound_of_prime hp hn ha han]
  rfl

/-- Settles O42: the rounds before the first witness pass, each with the words behind those of the one before. -/
theorem mrTestRunsItsRounds : Obligations.MrTestRunsItsRounds := by
  refine ⟨encodedAs_mrTest, fun s rd n => ⟨?_, fun h => ?_, fun hn _ => baseAt_range _ hn _, ?_, ?_⟩⟩
  · rintro (h | ⟨h, heven⟩)
    · exact exec_mrTest rd (mrTest_of_lt_two h _ _)
    · exact exec_mrTest rd (mrTest_of_even h heven _ _)
  · exact exec_mrTest rd (mrTest_two_or_three h _ _)
  · intro hn hodd h
    exact exec_mrTest rd ((mrTest_of_odd hn hodd _ _).trans (mrRoundsFrom_of_all_pass h))
  · intro hn hodd i hi hfail h
    exact exec_mrTest rd ((mrTest_of_odd hn hodd _ _).trans (mrRoundsFrom_of_first_witness hi hfail h))

/-- Settles O43: whatever the words, every base drawn is admitted, so a prime passes its round. -/
theorem primesPassTheTestForEveryStream : Obligations.PrimesPassTheTestForEveryStream := by
  intro s rd n hp hn
  refine exec_mrTest rd ((mrTest_of_odd hn (odd_of_prime hp hn) _ _).trans (mrRoundsFrom_of_all_pass fun i _ => ?_))
  obtain ⟨ha, han⟩ := baseAt_range s.cfg.stream hn s.rngPos i
  exact mrRound_of_prime hp hn ha han

end Sys2Proof.Machine

/-! ## Key generation (41_keygen.md): the candidates and the prime search -/

namespace Sys2Proof.Machine

section
open Sys2Proof.Claims

/-! ### The candidates of R144 -/

/-- Adding 2^i to a number whose bit `i` is clear sets that bit. -/
theorem add_two_pow_eq_or {c i : Nat} (h : bit c i = 0) : c + 2 ^ i = c ||| 2 ^ i := by
  have hlow : c % 2 ^ (i + 1) < 2 ^ i := by
    rw [mod_two_pow_succ, h, Nat.zero_mul, Nat.zero_add]
    exact Nat.mod_lt _ (by positivity)
  have hc := Nat.div_add_mod c (2 ^ (i + 1))
  generalize c / 2 ^ (i + 1) = high at hc
  generalize c % 2 ^ (i + 1) = low at hc hlow
  have hset : low + 2 ^ i < 2 ^ (i + 1) := by rw [pow_succ]; omega
  calc c + 2 ^ i = 2 ^ (i + 1) * high + (low + 2 ^ i) := by omega
    _ = 2 ^ (i + 1) * high ||| (low ||| 2 ^ i) := by
      rw [Nat.two_pow_add_eq_or_of_lt hset, Nat.or_two_pow_eq_add_of_lt hlow]
    _ = c ||| 2 ^ i := by rw [← Nat.or_assoc, ← Nat.two_pow_add_eq_or_of_lt (by omega), hc]

theorem or_two_pow_of_testBit {c i : Nat} (h : c.testBit i = true) : c ||| 2 ^ i = c := by
  refine Nat.eq_of_testBit_eq fun j => ?_
  by_cases hj : i = j
  · simp [← hj, h]
  · simp [Nat.testBit_two_pow_of_ne hj]

theorem forceBit_eq_or (c i : Nat) : forceBit c i = c ||| 2 ^ i := by
  rw [forceBit]
  split
  · next h => exact add_two_pow_eq_or h
  · next h =>
    have hbit : bit c i = 1 := by have := bit_lt_two c i; omega
    exact (or_two_pow_of_testBit (by rw [Nat.testBit_eq_decide_div_mod_eq]; exact decide_eq_true hbit)).symm

theorem candidateWords_eq (l : Nat) : candidateWords l = (l + 31) / 32 := rfl

theorem drawCandidate_eq_candidateAt (stream : Nat → Word) (l pos : Nat) :
    drawCandidate stream l pos = candidateAt stream l pos := by
  rw [drawCandidate, rngWords_zero, forceBit_eq_or, forceBit_eq_or, pow_zero, candidateWords_eq, candidateAt]

/-! ### The trials of PRIMEGEN (R145) -/

/-- After `i` failing trials the search goes on behind their words. -/
theorem primegenFrom_skip {stream : Nat → Word} {l pos : Nat} : ∀ i k : Nat,
    (∀ t < i, ¬ trialPasses stream l pos t) →
    primegenFrom stream l (i + k) pos = primegenFrom stream l k (trialPos stream l pos i) := by
  intro i
  induction i with
  | zero => intro k _; rw [Nat.zero_add, trialPos]
  | succ i ih =>
    intro k h
    have hi := h i (by omega)
    rw [trialPasses, ← candidateWords_eq, ← drawCandidate_eq_candidateAt] at hi
    rw [Nat.add_right_comm, Nat.add_assoc, ih (k + 1) fun t ht => h t (by omega), primegenFrom, if_neg hi,
      drawCandidate_eq_candidateAt, candidateWords_eq, trialPos]

theorem primegen_of_firstPass {c : Config} {l pos t : Nat} (h : firstPass c.stream l pos (c.maxTrials l) t) :
    primegen c l pos
      = (some (candidateAt c.stream l (trialPos c.stream l pos t)), trialPos c.stream l pos (t + 1)) := by
  obtain ⟨ht, hpass, hfail⟩ := h
  obtain ⟨m, hm⟩ : ∃ m, c.maxTrials l = t + (m + 1) := ⟨c.maxTrials l - t - 1, by omega⟩
  rw [trialPasses, ← candidateWords_eq, ← drawCandidate_eq_candidateAt] at hpass
  rw [primegen, hm, primegenFrom_skip t (m + 1) hfail, primegenFrom, if_pos hpass, trialPos,
    drawCandidate_eq_candidateAt, candidateWords_eq]

theorem primegen_of_all_fail {c : Config} {l pos : Nat} (h : ∀ t < c.maxTrials l, ¬ trialPasses c.stream l pos t) :
    primegen c l pos = (none, trialPos c.stream l pos (c.maxTrials l)) :=
  primegenFrom_skip (c.maxTrials l) 0 h

theorem maxTrials_default {c : Config} (h : c.trialBounds = []) (l : Nat) : c.maxTrials l = 64 * l := by
  rw [Config.maxTrials, h, List.lookup_nil, Option.getD_none]

theorem bitlenLegal_iff (s : State) :
    bitlenLegal s = true ↔ 8 ≤ s.configBitlen.toNat ∧ s.configBitlen.toNat ≤ s.cfg.width / 2 := by
  simp only [bitlenLegal, Bool.and_eq_true, decide_eq_true_eq]

theorem bitlenLegal_eq_false {s : State}
    (h : s.configBitlen.toNat < 8 ∨ s.cfg.width / 2 < s.configBitlen.toNat) : bitlenLegal s = false := by
  rw [← Bool.not_eq_true, bitlenLegal_iff]
  omega

theorem exec_primegen_illegal {s : State} (rd : Reg) (h : bitlenLegal s = false) :
    exec (.primegen rd) s = .next (failsWith 10 s) := by
  simp only [exec, execPrimegen, h]
  rfl

theorem exec_primegen_found {s : State} {c pos : Nat} (rd : Reg) (h : bitlenLegal s = true)
    (hg : primegen s.cfg s.configBitlen.toNat s.rngPos = (some c, pos)) :
    exec (.primegen rd) s = .next (succeeds (writes (takes s pos) rd c)) := by
  simp only [exec, execPrimegen, h, hg]
  rfl

theorem exec_primegen_exhausted {s : State} {pos : Nat} (rd : Reg) (h : bitlenLegal s = true)
    (hg : primegen s.cfg s.configBitlen.toNat s.rngPos = (none, pos)) :
    exec (.primegen rd) s = .next (failsWith 1 (takes s pos)) := by
  simp only [exec, execPrimegen, h, hg]
  rfl

end

/-- Settles O44: forcing a bit is the disjunction with it. -/
theorem candidateHasTopAndBottomBitSet : Obligations.CandidateHasTopAndBottomBitSet := by
  intro stream l pos hl
  obtain ⟨hlow, hhigh, hodd⟩ := drawCandidate_spec stream (show 2 ≤ l by omega) pos
  exact ⟨candidateWords_eq l, drawCandidate_eq_candidateAt stream l pos, hlow.le, hhigh, hodd⟩

/-- Settles O45: the search goes on behind the words of each failing trial. -/
theorem primegenAnswersTheFirstPassingCandidate : Obligations.PrimegenAnswersTheFirstPassingCandidate := by
  refine ⟨encodedAs_primegen, fun _ l h => maxTrials_default h l, fun s rd =>
    ⟨fun h => exec_primegen_illegal rd (bitlenLegal_eq_false h), fun hlow hhigh => ⟨fun t ht => ?_, fun hfail => ?_⟩⟩⟩
  · obtain ⟨h1, h2, h3⟩ := drawCandidate_spec s.cfg.stream (show 2 ≤ s.configBitlen.toNat by omega)
      (Claims.trialPos s.cfg.stream s.configBitlen.toNat s.rngPos t)
    rw [drawCandidate_eq_candidateAt] at h1 h2 h3
    exact ⟨_, rfl, h1, h2, h3, exec_primegen_found rd ((bitlenLegal_iff s).2 ⟨hlow, hhigh⟩) (primegen_of_firstPass ht)⟩
  · exact exec_primegen_exhausted rd ((bitlenLegal_iff s).2 ⟨hlow, hhigh⟩) (primegen_of_all_fail hfail)

end Sys2Proof.Machine

/-! ## Key generation (41_keygen.md): the derivation of a key, and the search for its exponent -/

namespace Sys2Proof.Machine

section
open Sys2Proof.Claims

/-! ### The derivation of R146 and R147 -/

/-- What `derive` answers where it succeeds (R147): the key of the least exponent and the two inverses. -/
theorem derive_ok {c : Config} {p q : Nat} {k : KeyBank} (hl : Config.eStart < c.eLimit)
    (h : derive c p q = .ok k) :
    3 ≤ p ∧ 3 ≤ q ∧ p * q < 2 ^ c.width ∧ Nat.gcd p q = 1
      ∧ ∃ e d qinv, k = keyOf p q e d qinv ∧ LeastExponent ((p - 1) * (q - 1)) c.eLimit e
        ∧ d < (p - 1) * (q - 1) ∧ e * d % ((p - 1) * (q - 1)) = 1 ∧ qinv < q ∧ p * qinv % q = 1 := by
  obtain ⟨e, d, qinv, hk, hp, hq, hn, he, hd, hqinv⟩ | hk := derive_cases c p q
  · rw [hk] at h
    cases h
    have hgcd : Nat.gcd p q = 1 := by
      by_contra hne
      simp [inv_eq_none.2 hne] at hqinv
    obtain ⟨hdlt, hdinv⟩ := inv_spec (phi_gt_one hp hq) hd
    obtain ⟨hqlt, hqinv⟩ := inv_spec (by omega) hqinv
    exact ⟨hp, hq, hn, hgcd, e, d, qinv, rfl, selectE_ok hl he, hdlt, hdinv, hqlt, hqinv⟩
  · rw [hk] at h
    cases h

theorem derive_eq_error {c : Config} {p q : Nat} (h : ∀ k, derive c p q ≠ .ok k) : derive c p q = .error .keygen := by
  obtain ⟨e, d, qinv, hk, -⟩ | hk := derive_cases c p q
  · exact absurd hk (h _)
  · exact hk

/-- The derivation and installation that end KEYDERIVE and KEYGEN meet R146, R147 and R149. -/
theorem derivesTo_conclude {s : State} (hc : s.cfg.legal = true) (p q : Nat) :
    DerivesTo p q s (conclude s (deriveAndInstall p q s)) := by
  obtain ⟨-, -, -, hl, -⟩ := (Config.legal_iff _).1 hc
  refine ⟨fun hbad => ?_, fun hp hq hn ⟨u, h1, h2, h3⟩ hgcd => ?_⟩
  · have herr : derive s.cfg p q = .error .keygen := derive_eq_error fun k hk => by
      obtain ⟨hp, hq, hn, hgcd, e, -, -, -, ⟨he1, he2, he3, -⟩, -⟩ := derive_ok hl hk
      obtain h | h | h | h | h := hbad
      · omega
      · omega
      · omega
      · exact h e he1 he2 he3
      · exact h hgcd
    simp only [deriveAndInstall, herr]
    rfl
  · obtain ⟨k, hk⟩ := derive_ok_of hp hq hn h1 h2 h3 hgcd
    obtain ⟨-, -, -, -, e, d, qinv, rfl, he, hd, hdinv, hqinv, hqinv'⟩ := derive_ok hl hk
    refine ⟨e, d, qinv, he, hd, hdinv, hqinv, hqinv', ?_⟩
    simp only [deriveAndInstall, hk]
    rfl

/-! ### The ends of KEYDERIVE and KEYGEN -/

theorem exec_keyderive_locked {s : State} (h : s.keyValid = true) (p q : Reg) :
    exec (.keyderive p q) s = .next (failsWith 9 s) := by
  simp only [exec, execKeyderive, if_pos h]
  rfl

theorem exec_keyderive {s : State} (h : s.keyValid = false) (p q : Reg) :
    exec (.keyderive p q) s = conclude s (deriveAndInstall (s.reg p) (s.reg q) s) := by
  simp only [exec, execKeyderive, h, Bool.false_eq_true, if_false]

theorem exec_keygen_locked {s : State} (h : s.keyValid = true) : exec .keygen s = .next (failsWith 9 s) := by
  simp only [exec, execKeygen, if_pos h]
  rfl

theorem exec_keygen_illegal {s : State} (h : s.keyValid = false) (hl : bitlenLegal s = false) :
    exec .keygen s = .next (failsWith 10 s) := by
  simp only [exec, execKeygen, h, hl]
  rfl

theorem exec_keygen_exhausted {s : State} {pos : Nat} (h : s.keyValid = false) (hl : bitlenLegal s = true)
    (hg : drawPrimes s.cfg s.configBitlen.toNat s.rngPos = (none, pos)) :
    exec .keygen s = .next (failsWith 1 (takes s pos)) := by
  simp only [exec, execKeygen, h, hl, hg]
  rfl

theorem exec_keygen_found {s : State} {p q pos : Nat} (h : s.keyValid = false) (hl : bitlenLegal s = true)
    (hg : drawPrimes s.cfg s.configBitlen.toNat s.rngPos = (some (p, q), pos)) :
    exec .keygen s = conclude (takes s pos) (deriveAndInstall p q (takes s pos)) := by
  simp only [exec, execKeygen, h, hl, hg]
  rfl

/-- q is not drawn when the search for p fails (R148). -/
theorem drawPrimes_of_first_none {c : Config} {l pos : Nat} (h : (primegen c l pos).1 = none) :
    drawPrimes c l pos = (none, (primegen c l pos).2) := by
  simp only [drawPrimes, h]

theorem drawPrimes_of_second_none {c : Config} {l pos : Nat} (hp : (primegen c l pos).1 ≠ none)
    (hq : (primegen c l (primegen c l pos).2).1 = none) :
    drawPrimes c l pos = (none, (primegen c l (primegen c l pos).2).2) := by
  obtain ⟨p, hp⟩ := Option.ne_none_iff_exists'.1 hp
  simp only [drawPrimes, hp, hq]

theorem drawPrimes_of_some {c : Config} {l pos p q : Nat} (hp : (primegen c l pos).1 = some p)
    (hq : (primegen c l (primegen c l pos).2).1 = some q) :
    drawPrimes c l pos = (some (p, q), (primegen c l (primegen c l pos).2).2) := by
  simp only [drawPrimes, hp, hq]

/-- A candidate has its top bit set (R144), so it is far above the 3 of R147. -/
theorem primegen_ge_three {c : Config} {l pos p : Nat} (hl : 8 ≤ l) (h : (primegen c l pos).1 = some p) : 3 ≤ p := by
  obtain ⟨hlow, -⟩ := primegen_some (by omega) h
  have : 2 ^ 7 ≤ 2 ^ (l - 1) := Nat.pow_le_pow_right (by omega) (by omega)
  omega

/-- BITLEN is at most W/2 (R32), so the product of two primes fits a register. -/
theorem mul_lt_two_pow {p q l w : Nat} (hp : p < 2 ^ l) (hq : q < 2 ^ l) (hl : l ≤ w / 2) : p * q < 2 ^ w :=
  calc p * q < 2 ^ l * 2 ^ l := Nat.mul_lt_mul'' hp hq
    _ = 2 ^ (l + l) := (pow_add 2 l l).symm
    _ ≤ 2 ^ w := Nat.pow_le_pow_right (by omega) (by omega)

/-! ### The exponent search below the default limit (R152) -/

/-- The primes among the exponents of R146 with the default E_LIMIT. -/
def exponentPrimes : Finset Nat := (Finset.Ico 65537 75537).filter Nat.Prime

theorem mem_exponentPrimes {r : Nat} : r ∈ exponentPrimes ↔ (65537 ≤ r ∧ r < 75537) ∧ r.Prime := by
  rw [exponentPrimes, Finset.mem_filter, Finset.mem_Ico]

/-- A number below 275^2 that has no factor up to 274 is a prime. -/
theorem prime_of_coprime_factorial {r : Nat} (h1 : 2 ≤ r) (h2 : r < 275 ^ 2) (h : r.Coprime (Nat.factorial 274)) :
    r.Prime := by
  by_contra hp
  have hmin : 274 < r.minFac := (Nat.coprime_factorial_iff (by omega)).1 h
  have hsq := Nat.minFac_sq_le_self (by omega) hp
  have : 275 ^ 2 ≤ r.minFac ^ 2 := Nat.pow_le_pow_left hmin 2
  omega

/-- Evaluated by the kernel, one gcd for each number of R152's range: R152 needs 512 primes of just this range. -/
theorem card_coprime_factorial :
    512 ≤ ((Finset.Ico 65537 75537).filter fun r => r.Coprime (Nat.factorial 274)).card := by decide +kernel

theorem card_exponentPrimes : 512 ≤ exponentPrimes.card := by
  refine card_coprime_factorial.trans (Finset.card_le_card fun r hr => ?_)
  rw [Finset.mem_filter, Finset.mem_Ico] at hr
  obtain ⟨hrange, hcop⟩ := hr
  exact mem_exponentPrimes.2 ⟨hrange, prime_of_coprime_factorial (by omega) (by omega) hcop⟩

/-- Each of the 512 primes is above 2^16, and 16 * 512 is the greatest W (R6). -/
theorem two_pow_le_prod_exponentPrimes {w : Nat} (hw : w ≤ 8192) : 2 ^ w ≤ ∏ r ∈ exponentPrimes, r := by
  have hcard : w ≤ 16 * exponentPrimes.card := by have := card_exponentPrimes; omega
  calc 2 ^ w ≤ 2 ^ (16 * exponentPrimes.card) := pow_le_pow_right₀ one_le_two hcard
    _ = (2 ^ 16) ^ exponentPrimes.card := pow_mul ..
    _ ≤ ∏ r ∈ exponentPrimes, r := Finset.pow_card_le_prod _ _ _ fun r hr => by
      obtain ⟨⟨hlow, -⟩, -⟩ := mem_exponentPrimes.1 hr
      omega

/-- R152: a phi of at most 8192 bits has not all of these primes as divisors. -/
theorem exists_coprime_exponent {phi w : Nat} (hpos : 0 < phi) (hlt : phi < 2 ^ w) (hw : w ≤ 8192) :
    ∃ u, 65537 ≤ u ∧ u < 75537 ∧ Nat.gcd u phi = 1 := by
  by_contra hnone
  have hdvd : ∏ r ∈ exponentPrimes, r ∣ phi := by
    refine Finset.prod_primes_dvd phi (fun r hr => (mem_exponentPrimes.1 hr).2.prime) fun r hr => ?_
    obtain ⟨⟨h1, h2⟩, hp⟩ := mem_exponentPrimes.1 hr
    by_contra hndvd
    exact hnone ⟨r, h1, h2, hp.coprime_iff_not_dvd.2 hndvd⟩
  exact absurd hlt ((two_pow_le_prod_exponentPrimes hw).trans (Nat.le_of_dvd hpos hdvd)).not_gt

theorem phi_le_mul (p q : Nat) : (p - 1) * (q - 1) ≤ p * q := Nat.mul_le_mul (Nat.sub_le p 1) (Nat.sub_le q 1)

end

/-- Settles O46: an unlocked KEYDERIVE is the derivation on its two operands. -/
theorem keyderiveInstallsTheDerivedKey : Obligations.KeyderiveInstallsTheDerivedKey := by
  refine ⟨encodedAs_keyderive, fun s p q hc => ⟨fun h => exec_keyderive_locked h p q, fun h => ?_⟩⟩
  rw [exec_keyderive h]
  exact derivesTo_conclude hc _ _

/-- Settles O47: with both primes found KEYGEN is the derivation on them, in the state with their words taken. -/
theorem keygenDrawsTwoPrimesAndDerives : Obligations.KeygenDrawsTwoPrimesAndDerives := by
  refine ⟨encodedAs_keygen, fun s hc => ⟨exec_keygen_locked,
    fun hv h => exec_keygen_illegal hv (bitlenLegal_eq_false h), fun hv hlow hhigh => ?_⟩⟩
  rintro first second rfl rfl
  have hl := (bitlenLegal_iff s).2 ⟨hlow, hhigh⟩
  refine ⟨fun hp => exec_keygen_exhausted hv hl (drawPrimes_of_first_none hp),
    fun hp hq => exec_keygen_exhausted hv hl (drawPrimes_of_second_none hp hq), fun p q hp hq => ?_⟩
  obtain ⟨-, hplt, -⟩ := primegen_some (by omega) hp
  obtain ⟨-, hqlt, -⟩ := primegen_some (by omega) hq
  refine ⟨primegen_ge_three hlow hp, primegen_ge_three hlow hq, mul_lt_two_pow hplt hqlt hhigh, ?_⟩
  rw [exec_keygen_found hv hl (drawPrimes_of_some hp hq)]
  exact derivesTo_conclude (by exact hc) p q

/-- Settles O52: some prime of [65537, 75537) does not divide phi, so the search ends and `derive` succeeds. -/
theorem defaultExponentSearchNeverFails : Obligations.DefaultExponentSearchNeverFails := by
  intro s p q hc he hv hp hq hn hgcd
  obtain ⟨-, -, hw, -⟩ := (Config.legal_iff _).1 hc
  obtain ⟨u, h1, h2, h3⟩ :=
    exists_coprime_exponent (Nat.zero_lt_of_lt (phi_gt_one hp hq)) ((phi_le_mul _ _).trans_lt hn) hw
  obtain ⟨k, hk⟩ := derive_ok_of hp hq hn h1 (h2.trans_eq he.symm) h3 hgcd
  refine ⟨k, ?_, derive_valid hc hk⟩
  rw [exec_keyderive hv]
  simp only [deriveAndInstall, hk]
  rfl

end Sys2Proof.Machine

/-! ## Modular arithmetic (42_modexp.md): the multiplier, the Montgomery product and the exponentiator -/

namespace Sys2Proof.Machine

section
open Sys2Proof.Claims

/-! ### The rows of R95 with a third source -/

theorem toReg_rs3 (w : Word) : toReg (Fields.ofWord w).rs3 = field w 15 := toReg_extractLsb' w 15

theorem encodedAs_modmul : EncodedAs 0x01 0xFFFC003F 0x00000001
    (fun w => .modmul (field w 6) (field w 9) (field w 12) (field w 15)) :=
  encodedAs_of_decode fun w hw => by simp only [decode, op_ofWord hw, toReg_rd, toReg_rs1, toReg_rs2, toReg_rs3]

theorem encodedAs_montmul : EncodedAs 0x02 0xFFFC003F 0x00000002
    (fun w => .montmul (field w 6) (field w 9) (field w 12) (field w 15)) :=
  encodedAs_of_decode fun w hw => by simp only [decode, op_ofWord hw, toReg_rd, toReg_rs1, toReg_rs2, toReg_rs3]

theorem encodedAs_modexp : EncodedAs 0x03 0xFFFC003F 0x00000003
    (fun w => .modexp (field w 6) (field w 9) (field w 12) (field w 15)) :=
  encodedAs_of_decode fun w hw => by simp only [decode, op_ofWord hw, toReg_rd, toReg_rs1, toReg_rs2, toReg_rs3]

/-! ### The ends of MODMUL, MONTMUL and MODEXP -/

theorem exec_modmul_refused {s : State} {n : Reg} (rd a b : Reg) (h : s.reg n < 2) :
    exec (.modmul rd a b n) s = .next (failsWith 6 s) := by
  simp only [exec, execModmul, if_pos h]
  rfl

theorem exec_modmul_admitted {s : State} {n : Reg} (rd a b : Reg) (h : 2 ≤ s.reg n) :
    exec (.modmul rd a b n) s = .next (succeeds (writes s rd (s.reg a * s.reg b % s.reg n))) := by
  simp only [exec, execModmul, if_neg h.not_gt]
  rfl

theorem exec_montmul_bad_modulus {s : State} {n : Reg} (rd a b : Reg) (h : s.reg n < 2 ∨ s.reg n % 2 = 0) :
    exec (.montmul rd a b n) s = .next (failsWith 6 s) := by
  simp only [exec, execMontmul, if_pos h]
  rfl

theorem exec_montmul_bad_operand {s : State} {a b n : Reg} (rd : Reg) (hn : 2 ≤ s.reg n) (hodd : s.reg n % 2 = 1)
    (h : s.reg n ≤ s.reg a ∨ s.reg n ≤ s.reg b) :
    exec (.montmul rd a b n) s = .next (failsWith 7 s) := by
  have hmod : ¬(s.reg n < 2 ∨ s.reg n % 2 = 0) := by omega
  simp only [exec, execMontmul, if_neg hmod, if_pos h]
  rfl

theorem exec_montmul_admitted {s : State} {a b n : Reg} (rd : Reg) (hn : 2 ≤ s.reg n) (hodd : s.reg n % 2 = 1)
    (ha : s.reg a < s.reg n) (hb : s.reg b < s.reg n) :
    exec (.montmul rd a b n) s = .next (succeeds (writes s rd (montmul (s.reg a) (s.reg b) (s.reg n)))) := by
  have hmod : ¬(s.reg n < 2 ∨ s.reg n % 2 = 0) := by omega
  have hop : ¬(s.reg n ≤ s.reg a ∨ s.reg n ≤ s.reg b) := by omega
  simp only [exec, execMontmul, if_neg hmod, if_neg hop]
  rfl

theorem exec_modexp_refused {s : State} {m : Reg} (rd b x : Reg) (h : s.reg m < 2) :
    exec (.modexp rd b x m) s = .next (failsWith 6 s) := by
  simp only [exec, execModexp, if_pos h]
  rfl

theorem exec_modexp_admitted {s : State} {m : Reg} (rd b x : Reg) (h : 2 ≤ s.reg m) :
    exec (.modexp rd b x m) s = .next (succeeds (writes s rd (s.reg b ^ s.reg x % s.reg m))) := by
  rw [← modexp_eq_pow _ _ h]
  simp only [exec, execModexp, if_neg h.not_gt]
  rfl

/-! ### The Montgomery radix and product (R180 to R182) -/

/-- With `lt_montRadix`: the radix is the least power of 2^32 above `n` (R180). -/
theorem two_pow_le_of_lt_ceilDiv {n j : Nat} (h : j < ceilDiv (bitlen n) 32) : 2 ^ (32 * j) ≤ n := by
  have hj : ¬bitlen n ≤ 32 * j := by
    unfold ceilDiv at h
    omega
  rwa [bitlen_le_iff, not_lt] at hj

/-- The radix is invertible modulo `n`, so a reduced value is known by its product with the radix. -/
theorem montmul_eq_of_mul_radix {a b v n : Nat} (hn : 1 < n) (hodd : n % 2 = 1) (hv : v < n)
    (h : v * montRadix n ≡ a * b [MOD n]) : montmul a b n = v := by
  have hmont : montmul a b n * montRadix n ≡ v * montRadix n [MOD n] :=
    Nat.ModEq.trans (montmul_mul_radix a b hn hodd) h.symm
  have hcop : Nat.gcd n (montRadix n) = 1 := (Nat.gcd_comm _ _).trans (montRadix_coprime hodd)
  exact (Nat.ModEq.cancel_right_of_coprime hcop hmont).eq_of_lt_of_lt (montmul_lt a b (by omega)) hv

/-- Conversion into the Montgomery domain (R182). -/
theorem montmul_radix_sq (a : Nat) {n : Nat} (hn : 1 < n) (hodd : n % 2 = 1) :
    montmul a (montRadix n ^ 2 % n) n = a * montRadix n % n := by
  refine montmul_eq_of_mul_radix hn hodd (Nat.mod_lt _ (by omega)) ?_
  calc a * montRadix n % n * montRadix n
      ≡ a * montRadix n * montRadix n [MOD n] := (Nat.mod_modEq _ _).mul_right _
    _ = a * montRadix n ^ 2 := by ring
    _ ≡ a * (montRadix n ^ 2 % n) [MOD n] := (Nat.mod_modEq _ _).symm.mul_left _

/-- Conversion out of the Montgomery domain (R182). -/
theorem montmul_one {x n : Nat} (hn : 1 < n) (hodd : n % 2 = 1) (hx : x < n) :
    montmul (x * montRadix n % n) 1 n = x := by
  refine montmul_eq_of_mul_radix hn hodd hx ?_
  rw [mul_one]
  exact (Nat.mod_modEq _ _).symm

/-- The product inside the Montgomery domain (R182). -/
theorem montmul_domain (x y : Nat) {n : Nat} (hn : 1 < n) (hodd : n % 2 = 1) :
    montmul (x * montRadix n % n) (y * montRadix n % n) n = x * y * montRadix n % n := by
  refine montmul_eq_of_mul_radix hn hodd (Nat.mod_lt _ (by omega)) ?_
  calc x * y * montRadix n % n * montRadix n
      ≡ x * y * montRadix n * montRadix n [MOD n] := (Nat.mod_modEq _ _).mul_right _
    _ = x * montRadix n * (y * montRadix n) := by ring
    _ ≡ x * montRadix n % n * (y * montRadix n % n) [MOD n] := ((Nat.mod_modEq _ _).mul (Nat.mod_modEq _ _)).symm

/-! ### Montgomery's reduction -/

/-- The factor u of REDC: adding u * n makes T divisible by r, since n times n' = -inv(n, r) is -1 modulo r. -/
theorem dvd_add_redc_mul {n r v : Nat} (t : Nat) (hr : 1 < r) (hv : v < r) (h : n * v % r = 1) :
    r ∣ t + t % r * ((r - v) % r) % r * n := by
  have hinv : n * v ≡ 1 [MOD r] := h.trans (Nat.mod_eq_of_lt hr).symm
  have hneg : (r - v) % r + v ≡ 0 [MOD r] := by
    refine ((Nat.mod_modEq _ _).add_right v).trans ?_
    rw [Nat.sub_add_cancel hv.le]
    exact Nat.modEq_zero_iff_dvd.2 dvd_rfl
  rw [← Nat.modEq_zero_iff_dvd]
  calc t + t % r * ((r - v) % r) % r * n
      ≡ t * (n * v) + t * ((r - v) % r) * n [MOD r] := by
        refine Nat.ModEq.add ?_ ?_
        · simpa using hinv.symm.mul_left t
        · exact ((Nat.mod_modEq _ _).trans ((Nat.mod_modEq _ _).mul_right _)).mul_right n
    _ = t * n * ((r - v) % r + v) := by ring
    _ ≡ t * n * 0 [MOD r] := hneg.mul_left _

/-- The quotient of REDC and its one conditional subtraction, for T < r * n and u < r (R181). -/
theorem redc_quotient_spec {n r t u q : Nat} (hq : q * r = t + u * n) (ht : t < r * n) (hu : u < r) :
    (if n ≤ q then q - n else q) < n ∧ (if n ≤ q then q - n else q) * r ≡ t [MOD n] := by
  have hlt : q < 2 * n := by
    refine lt_of_mul_lt_mul_right (a := r) ?_ (Nat.zero_le r)
    calc q * r = t + u * n := hq
      _ < r * n + r * n := add_lt_add_of_lt_of_le ht (Nat.mul_le_mul_right n hu.le)
      _ = 2 * n * r := by ring
  have hmod : q * r ≡ t [MOD n] := by simp [hq, Nat.ModEq]
  split
  · next hle =>
    have hsub : q - n ≡ q [MOD n] := (Nat.mod_eq_sub_mod hle).symm
    exact ⟨by omega, (hsub.mul_right r).trans hmod⟩
  · exact ⟨by omega, hmod⟩

/-- REDC answers a reduced value whose product with the radix is a * b modulo n. -/
theorem redc_spec {a b n : Nat} (hn : 1 < n) (hodd : n % 2 = 1) (ha : a < n) (hb : b < n) :
    redc a b n < n ∧ redc a b n * montRadix n ≡ a * b [MOD n] := by
  have hlt := lt_montRadix n
  have hr : 1 < montRadix n := hn.trans hlt
  obtain ⟨v, hv⟩ := inv_of_coprime ((Nat.gcd_comm _ _).trans (montRadix_coprime hodd))
  obtain ⟨hvlt, hvinv⟩ := inv_spec hr hv
  unfold redc
  simp only [hv, Option.getD_some]
  refine redc_quotient_spec (Nat.div_mul_cancel (dvd_add_redc_mul (a * b) hr hvlt hvinv)) ?_ (Nat.mod_lt _ (by omega))
  calc a * b < n * n := Nat.mul_lt_mul'' ha hb
    _ ≤ montRadix n * n := Nat.mul_le_mul_right n hlt.le

/-! ### The work of `modexp` (R185) -/

/-- The counted loop over the low `i` bits from any counts: one squaring a bit, one product a bit that is 1. -/
theorem modexpCounted_eq (b x m : Nat) : ∀ i r squares products, modexpCounted b x m i (r, squares, products) =
    (modexpLoop b x m i r, squares + i, products + popcountBelow x i) := by
  intro i
  induction i with
  | zero => exact fun _ _ _ => rfl
  | succ i ih =>
    intro r squares products
    simp only [modexpCounted, modexpLoop, popcountBelow]
    split
    · next hbit =>
      rw [ih, hbit]
      ac_rfl
    · next hbit =>
      have hzero : bit x i = 0 := by have := bit_lt_two x i; omega
      rw [ih, hzero]
      ac_rfl

end

/-- Settles O32: MODMUL checks its modulus and answers the product's remainder. -/
theorem modmulGivesTheModularProduct : Obligations.ModmulGivesTheModularProduct :=
  ⟨encodedAs_modmul, fun _ rd a b _ => ⟨exec_modmul_refused rd a b, exec_modmul_admitted rd a b⟩⟩

/-- Settles O33: k is the model's own count of 32-bit words of N, and v the inverse that `montmul` uses. -/
theorem montmulGivesTheMontgomeryProduct : Obligations.MontmulGivesTheMontgomeryProduct := by
  refine ⟨encodedAs_montmul, fun s rd a b n =>
    ⟨exec_montmul_bad_modulus rd a b, exec_montmul_bad_operand rd, fun hn hodd ha hb => ?_⟩⟩
  obtain ⟨v, hv⟩ := inv_of_coprime (montRadix_coprime hodd)
  obtain ⟨hvlt, hvinv⟩ := inv_spec hn hv
  refine ⟨ceilDiv (bitlen (s.reg n)) 32, v, lt_montRadix _, fun _ => two_pow_le_of_lt_ceilDiv, hvlt, hvinv, ?_⟩
  rw [exec_montmul_admitted rd hn hodd ha hb, montmul, hv, Option.getD_some]

/-- Settles O34: a power of the radix is a power of 2, and the radix pins each Montgomery product. -/
theorem montmulDomainIdentities : Obligations.MontmulDomainIdentities := by
  refine ⟨fun s rd b x m hm hb hx => ?_, fun s rd a b n hn hodd ha hb =>
    ⟨_, exec_montmul_admitted rd hn hodd ha hb, fun hsq => ?_, fun hone x hx hform => ?_, fun hone => ?_,
      fun x y hax hby => ?_, fun hone hsq => ?_⟩⟩
  · rw [exec_modexp_admitted rd b x hm, hb, hx, mul_comm 2, pow_mul, montRadix]
  · rw [hsq, montmul_radix_sq _ hn hodd]
  · rw [hone, hform, montmul_one hn hodd hx]
  · rw [montmul_mul_radix _ _ hn hodd, hone, mul_one, Nat.mod_eq_of_lt ha]
  · rw [hax, hby, montmul_domain x y hn hodd]
  · rw [hone, hsq, montmul_radix_sq 1 hn hodd, one_mul]

/-- Settles O35: REDC's value is reduced and meets the congruence that pins the Montgomery product. -/
theorem redcComputesTheMontgomeryProduct : Obligations.RedcComputesTheMontgomeryProduct := by
  intro a b n hn hodd ha hb
  obtain ⟨hlt, hmod⟩ := redc_spec hn hodd ha hb
  exact (montmul_eq_of_mul_radix hn hodd hlt hmod).symm

/-- Settles O36: MODEXP checks its modulus and runs square-and-multiply, which gives the power. -/
theorem modexpGivesTheModularPower : Obligations.ModexpGivesTheModularPower :=
  ⟨encodedAs_modexp, fun _ rd b x _ => ⟨exec_modexp_refused rd b x, exec_modexp_admitted rd b x⟩⟩

/-- Settles O37: the counted loop of all bits, from no squarings and no products. -/
theorem modexpOperationCount : Obligations.ModexpOperationCount := by
  intro b x m
  rw [modexpCounted_eq, Nat.zero_add, Nat.zero_add]
  rfl

end Sys2Proof.Machine

/-! ## Block encryption (43_block.md): ENC_BLOCK, and the round trip through DEC_BLOCK -/

namespace Sys2Proof.Machine

section
open Sys2Proof.Claims

theorem encodedAs_encBlock : EncodedAs 0x0A 0xFFFFF03F 0x0000000A (fun w => .encBlock (field w 6) (field w 9)) :=
  encodedAs_of_decode fun w hw => by simp only [decode, op_ofWord hw, toReg_rd, toReg_rs1]

/-! ### The modulus of a valid key and its factors -/

theorem KeyBank.Valid.one_lt_p {w : Nat} {k : KeyBank} (h : k.Valid w) : 1 < k.p :=
  lt_of_lt_of_le (by decide) h.p_ge

theorem KeyBank.Valid.one_lt_q {w : Nat} {k : KeyBank} (h : k.Valid w) : 1 < k.q :=
  lt_of_lt_of_le (by decide) h.q_ge

theorem KeyBank.Valid.one_lt_n {w : Nat} {k : KeyBank} (h : k.Valid w) : 1 < k.n := by
  rw [h.n_eq]
  exact one_lt_mul'' h.one_lt_p h.one_lt_q

/-- A valid key holds an inverse of p modulo q (R151), so its factors are coprime, prime or not. -/
theorem KeyBank.Valid.coprime {w : Nat} {k : KeyBank} (h : k.Valid w) : Nat.Coprime k.p k.q :=
  Nat.coprime_of_mul_modEq_one k.qinv (h.qinv_inverse.trans (Nat.mod_eq_of_lt h.one_lt_q).symm)

/-! ### The ends of ENC_BLOCK and the success of DEC_BLOCK -/

theorem exec_encBlock_noKey {s : State} (h : s.keyValid = false) (rd m : Reg) :
    exec (.encBlock rd m) s = .next (failsWith 8 s) := by
  simp only [exec, execEncBlock, if_pos h]
  rfl

theorem exec_encBlock_tooLarge {s : State} {m : Reg} (rd : Reg) (hv : s.keyValid = true) (h : s.key.n ≤ s.reg m) :
    exec (.encBlock rd m) s = .next (failsWith 3 s) := by
  simp only [exec, execEncBlock, hv, Bool.true_eq_false, if_false, if_pos h]
  rfl

theorem exec_encBlock_admitted {s : State} {m : Reg} (rd : Reg) (hs : s.Inv) (hv : s.keyValid = true)
    (h : s.reg m < s.key.n) :
    exec (.encBlock rd m) s = .next (succeeds (writes s rd (s.reg m ^ s.key.e % s.key.n))) := by
  rw [← modexp_eq_pow _ _ (hs.key_valid hv).one_lt_n]
  simp only [exec, execEncBlock, hv, Bool.true_eq_false, if_false, if_neg h.not_ge]
  rfl

theorem exec_decBlock_admitted {s : State} {c : Reg} (rd : Reg) (hv : s.keyValid = true) (h : s.reg c < s.key.n) :
    exec (.decBlock rd c) s = .next (succeeds (writes s rd (crtDecrypt s.key (s.reg c)))) := by
  simp only [exec, execDecBlock, hv, Bool.true_eq_false, if_false, if_neg h.not_ge]
  rfl

@[simp] theorem reg_succeeds_writes_self (s : State) (rd : Reg) (v : Nat) : (succeeds (writes s rd v)).reg rd = v :=
  reg_setReg_self s rd v

/-! ### Decryption by residues -/

theorem modexp_mod_modEq (c x : Nat) {m : Nat} (hm : 1 < m) : modexp (c % m) x m ≡ c ^ x [MOD m] := by
  rw [modexp_eq_pow _ _ hm]
  exact (Nat.mod_modEq _ _).trans ((Nat.mod_modEq c m).pow x)

/-- The Chinese remainder theorem for R221: the decrypted block is known by the residues of the two powers. -/
theorem crtDecrypt_eq_of_modEq {w : Nat} {k : KeyBank} (hk : k.Valid w) {c v : Nat} (hv : v < k.n)
    (hp : c ^ k.dp ≡ v [MOD k.p]) (hq : c ^ k.dq ≡ v [MOD k.q]) : crtDecrypt k c = v := by
  have hmp := modexp_lt (c % k.p) k.dp hk.one_lt_p
  have hmq := modexp_lt (c % k.q) k.dq hk.one_lt_q
  have hmodp : crtDecrypt k c ≡ v [MOD k.p] := by
    refine Nat.ModEq.trans ?_ ((modexp_mod_modEq c k.dp hk.one_lt_p).trans hp)
    exact (crtCombine_mod_p _ _ _ hmp).trans (Nat.mod_eq_of_lt hmp).symm
  have hmodq : crtDecrypt k c ≡ v [MOD k.q] := by
    refine Nat.ModEq.trans ?_ ((modexp_mod_modEq c k.dq hk.one_lt_q).trans hq)
    exact (crtCombine_mod_q hmq hk.qinv_inverse).trans (Nat.mod_eq_of_lt hmq).symm
  have hmodn : crtDecrypt k c ≡ v [MOD k.n] := by
    rw [hk.n_eq]
    exact (Nat.modEq_and_modEq_iff_modEq_mul hk.coprime).1 ⟨hmodp, hmodq⟩
  exact hmodn.eq_of_lt_of_lt (crtDecrypt_lt hk c) hv

/-! ### Decryption undoes encryption modulo each prime -/

/-- Fermat's little theorem for every base, multiples of the prime included. -/
theorem pow_modEq_pow_of_prime {p a b : Nat} (hp : p.Prime) (h : a ≡ b [MOD p - 1]) (ha : 0 < a) (hb : 0 < b)
    (m : Nat) : m ^ a ≡ m ^ b [MOD p] := by
  wlog hle : a ≤ b generalizing a b
  · exact (this h.symm hb ha (by omega)).symm
  rw [← Int.natCast_modEq_iff, Nat.cast_pow, Nat.cast_pow]
  exact (Int.ModEq.pow_eq_pow hp ((Nat.modEq_iff_dvd' hle).1 h) hle ha m).symm

/-- R151's `(d * e) mod phi = 1`, for a reduced d modulo a divisor of phi (there d is dp or dq). -/
theorem KeyBank.Valid.e_mul_reduced_d {w : Nat} {k : KeyBank} (hk : k.Valid w) {l : Nat} (hl : l ∣ k.phi) :
    k.e * (k.d % l) ≡ 1 [MOD l] := by
  have hphi : 1 < k.phi := by
    rw [hk.phi_eq]
    exact phi_gt_one hk.p_ge hk.q_ge
  have hde : k.d * k.e ≡ 1 [MOD k.phi] := hk.d_inverse.trans (Nat.mod_eq_of_lt hphi).symm
  calc k.e * (k.d % l) ≡ k.e * k.d [MOD l] := (Nat.mod_modEq _ _).mul_left _
    _ = k.d * k.e := mul_comm ..
    _ ≡ 1 [MOD l] := hde.of_dvd hl

/-- R212's step c^d ≡ m^(e*d) ≡ m, modulo one prime factor `r` of n, p or q. -/
theorem KeyBank.Valid.pow_pow_modEq {w : Nat} {k : KeyBank} (hk : k.Valid w) {r : Nat} (hr : r.Prime) (h3 : 3 ≤ r)
    (hn : r ∣ k.n) (hphi : r - 1 ∣ k.phi) (m : Nat) : (m ^ k.e % k.n) ^ (k.d % (r - 1)) ≡ m [MOD r] := by
  have hexp := hk.e_mul_reduced_d hphi
  have hpos : 0 < k.e * (k.d % (r - 1)) := by
    refine Nat.pos_of_ne_zero fun h0 => ?_
    rw [h0, Nat.ModEq, Nat.zero_mod, Nat.mod_eq_of_lt (by omega)] at hexp
    exact zero_ne_one hexp
  calc (m ^ k.e % k.n) ^ (k.d % (r - 1))
      ≡ (m ^ k.e) ^ (k.d % (r - 1)) [MOD r] := ((Nat.mod_modEq _ _).of_dvd hn).pow _
    _ = m ^ (k.e * (k.d % (r - 1))) := (pow_mul ..).symm
    _ ≡ m ^ 1 [MOD r] := pow_modEq_pow_of_prime hr hexp hpos one_pos m
    _ = m := pow_one m

theorem crtDecrypt_encrypt {w : Nat} {k : KeyBank} (hk : k.Valid w) (hp : k.p.Prime) (hq : k.q.Prime) {m : Nat}
    (hm : m < k.n) : crtDecrypt k (m ^ k.e % k.n) = m := by
  refine crtDecrypt_eq_of_modEq hk hm ?_ ?_
  · rw [hk.dp_eq]
    exact hk.pow_pow_modEq hp hk.p_ge (hk.n_eq ▸ dvd_mul_right ..) (hk.phi_eq ▸ dvd_mul_right ..) m
  · rw [hk.dq_eq]
    exact hk.pow_pow_modEq hq hk.q_ge (hk.n_eq ▸ dvd_mul_left ..) (hk.phi_eq ▸ dvd_mul_left ..) m

end

/-- Settles O48: ENC_BLOCK checks the key, then the block, and runs square-and-multiply. -/
theorem encBlockGivesThePublicPower : Obligations.EncBlockGivesThePublicPower :=
  ⟨encodedAs_encBlock, fun _ rd m hs =>
    ⟨fun h => exec_encBlock_noKey h rd m, exec_encBlock_tooLarge rd, exec_encBlock_admitted rd hs⟩⟩

/-- Settles O51: both residues of the decrypted block are those of m (Fermat), so the block is m (the Chinese
remainder theorem). That p and q are distinct follows from the key's qinv. -/
theorem decryptionInvertsEncryption : Obligations.DecryptionInvertsEncryption := by
  intro s rc rm m hs hv hp hq _ hm
  have hk := hs.key_valid hv
  have hc : s.reg m ^ s.key.e % s.key.n < s.key.n := Nat.mod_lt _ (Nat.zero_lt_of_lt hm)
  refine ⟨_, _, exec_encBlock_admitted rc hs hv hm, ?_, exec_decBlock_admitted rm hv ?_, ?_⟩
  · rwa [reg_succeeds_writes_self]
  · exact (reg_succeeds_writes_self s rc _).trans_lt hc
  · rw [reg_succeeds_writes_self, reg_succeeds_writes_self]
    exact crtDecrypt_encrypt hk hp hq hm

end Sys2Proof.Machine

/-! ## CRT recombination (44_crt.md): CRT_RECOMBINE, DEC_BLOCK and the CRT equivalence -/

namespace Sys2Proof.Machine

section
open Sys2Proof.Claims

/-! ### The rows of CRT_RECOMBINE and DEC_BLOCK -/

theorem toReg_rs4 (w : Word) : toReg (Fields.ofWord w).rs4 = field w 18 := toReg_extractLsb' w 18

theorem toReg_rs5 (w : Word) : toReg (Fields.ofWord w).rs5 = field w 21 := toReg_extractLsb' w 21

theorem encodedAs_crtRecombine : EncodedAs 0x04 0xFF00003F 0x00000004
    (fun w => .crtRecombine (field w 6) (field w 9) (field w 12) (field w 15) (field w 18) (field w 21)) :=
  encodedAs_of_decode fun w hw => by
    simp only [decode, op_ofWord hw, toReg_rd, toReg_rs1, toReg_rs2, toReg_rs3, toReg_rs4, toReg_rs5]

theorem encodedAs_decBlock : EncodedAs 0x0B 0xFFFFF03F 0x0000000B (fun w => .decBlock (field w 6) (field w 9)) :=
  encodedAs_of_decode fun w hw => by simp only [decode, op_ofWord hw, toReg_rd, toReg_rs1]

/-! ### The recombination on integers -/

/-- The floored remainder of R220's difference lies in [0, q), so the model's cut to a natural number loses
nothing, whatever mp, mq, p and qinv are. -/
theorem crtCombine_eq_garner (mp mq p qinv : Nat) {q : Nat} (hq : 0 < q) :
    (crtCombine mp mq p q qinv : Int) = garner mp mq p q qinv := by
  have hdiff : 0 ≤ ((mq : Int) - mp) % q := Int.emod_nonneg _ (by omega)
  unfold crtCombine crtH garner
  push_cast
  rw [Int.toNat_of_nonneg hdiff]

/-! ### The ends of CRT_RECOMBINE and the errors of DEC_BLOCK -/

theorem exec_crtRecombine_bad_modulus {s : State} {q : Reg} (rd mp mq p qi : Reg) (h : s.reg q < 2) :
    exec (.crtRecombine rd mp mq p q qi) s = .next (failsWith 6 s) := by
  simp only [exec, execCrtRecombine, if_pos h]
  rfl

theorem exec_crtRecombine_overflow {s : State} {mp mq p q qi : Reg} (rd : Reg) (hq : 2 ≤ s.reg q)
    (h : 2 ^ s.cfg.width ≤ crtCombine (s.reg mp) (s.reg mq) (s.reg p) (s.reg q) (s.reg qi)) :
    exec (.crtRecombine rd mp mq p q qi) s = .next (failsWith 11 s) := by
  simp only [exec, execCrtRecombine, if_neg hq.not_gt, if_pos h]
  rfl

theorem exec_crtRecombine_fits {s : State} {mp mq p q qi : Reg} (rd : Reg) (hq : 2 ≤ s.reg q)
    (h : crtCombine (s.reg mp) (s.reg mq) (s.reg p) (s.reg q) (s.reg qi) < 2 ^ s.cfg.width) :
    exec (.crtRecombine rd mp mq p q qi) s
      = .next (succeeds (writes s rd (crtCombine (s.reg mp) (s.reg mq) (s.reg p) (s.reg q) (s.reg qi)))) := by
  simp only [exec, execCrtRecombine, if_neg hq.not_gt, if_neg h.not_ge]
  rfl

theorem exec_decBlock_noKey {s : State} (h : s.keyValid = false) (rd c : Reg) :
    exec (.decBlock rd c) s = .next (failsWith 8 s) := by
  simp only [exec, execDecBlock, if_pos h]
  rfl

theorem exec_decBlock_tooLarge {s : State} {c : Reg} (rd : Reg) (hv : s.keyValid = true) (h : s.key.n ≤ s.reg c) :
    exec (.decBlock rd c) s = .next (failsWith 4 s) := by
  simp only [exec, execDecBlock, hv, Bool.true_eq_false, if_false, if_pos h]
  rfl

/-! ### DEC_BLOCK through the private power -/

/-- R221's two powers with an installed key: neither modulus is below 2, so square-and-multiply gives both. -/
theorem crtDecrypt_eq_crtCombine_pow {w : Nat} {k : KeyBank} (hk : k.Valid w) (c : Nat) :
    crtDecrypt k c = crtCombine (c ^ k.dp % k.p) (c ^ k.dq % k.q) k.p k.q k.qinv := by
  rw [crtDecrypt, modexp_eq_pow _ _ hk.one_lt_p, modexp_eq_pow _ _ hk.one_lt_q, ← Nat.pow_mod, ← Nat.pow_mod]

/-- R221's "dp >= 1": the reduced d is a unit modulo r - 1 >= 2. -/
theorem KeyBank.Valid.reduced_d_pos {w : Nat} {k : KeyBank} (hk : k.Valid w) {r : Nat} (h3 : 3 ≤ r)
    (hphi : r - 1 ∣ k.phi) : 0 < k.d % (r - 1) := by
  have hexp := hk.e_mul_reduced_d hphi
  refine Nat.pos_of_ne_zero fun h0 => ?_
  rw [h0, mul_zero, Nat.ModEq, Nat.zero_mod, Nat.mod_eq_of_lt (by omega)] at hexp
  exact zero_ne_one hexp

/-- Modulo one prime factor `r` of n, p or q, the reduced exponent gives the private power (R222). -/
theorem KeyBank.Valid.pow_reduced_d_modEq {w : Nat} {k : KeyBank} (hk : k.Valid w) {r : Nat} (hr : r.Prime)
    (h3 : 3 ≤ r) (hn : r ∣ k.n) (hphi : r - 1 ∣ k.phi) (c : Nat) :
    c ^ (k.d % (r - 1)) ≡ c ^ k.d % k.n [MOD r] := by
  have hpos := hk.reduced_d_pos h3 hphi
  calc c ^ (k.d % (r - 1))
      ≡ c ^ k.d [MOD r] :=
        pow_modEq_pow_of_prime hr (Nat.mod_modEq _ _) hpos (hpos.trans_le (Nat.mod_le _ _)) c
    _ ≡ c ^ k.d % k.n [MOD r] := ((Nat.mod_modEq _ _).of_dvd hn).symm

theorem crtDecrypt_eq_pow {w : Nat} {k : KeyBank} (hk : k.Valid w) (hp : k.p.Prime) (hq : k.q.Prime) (c : Nat) :
    crtDecrypt k c = c ^ k.d % k.n := by
  refine crtDecrypt_eq_of_modEq hk (Nat.mod_lt _ (Nat.zero_lt_of_lt hk.one_lt_n)) ?_ ?_
  · rw [hk.dp_eq]
    exact hk.pow_reduced_d_modEq hp hk.p_ge (hk.n_eq ▸ dvd_mul_right ..) (hk.phi_eq ▸ dvd_mul_right ..) c
  · rw [hk.dq_eq]
    exact hk.pow_reduced_d_modEq hq hk.q_ge (hk.n_eq ▸ dvd_mul_left ..) (hk.phi_eq ▸ dvd_mul_left ..) c

/-! ### R222's key of 9 and 7 -/

theorem leastExponent_eq_start {phi limit e : Nat} (h : LeastExponent phi limit e) (hgcd : Nat.gcd 65537 phi = 1) :
    e = 65537 := by
  obtain ⟨hge, -, -, hleast⟩ := h
  by_contra hne
  exact hleast 65537 le_rfl (by omega) hgcd

/-- On every legal core: 65537 is coprime to phi = 48, and the inverses of 65537 modulo 48 and of 9 modulo 7 are
17 and 4. -/
theorem exec_keyderive_nine_seven {s : State} {p q : Reg} (hc : s.cfg.legal = true) (hv : s.keyValid = false)
    (hp : s.reg p = 9) (hq : s.reg q = 7) :
    exec (.keyderive p q) s
      = .next (succeeds { s with key := ⟨9, 7, 63, 48, 65537, 17, 1, 5, 4⟩, keyValid := true }) := by
  obtain ⟨-, hw, -, hl, -⟩ := (Config.legal_iff _).1 hc
  have hn : 9 * 7 < 2 ^ s.cfg.width := lt_of_lt_of_le (by decide) (Nat.pow_le_pow_right two_pos hw)
  obtain ⟨e, d, qinv, he, hd, hdinv, hqinv, hqinv', h⟩ :=
    (derivesTo_conclude hc 9 7).2 (by decide) (by decide) hn ⟨65537, le_rfl, hl, by decide⟩ (by decide)
  obtain rfl : e = 65537 := leastExponent_eq_start he (by decide)
  obtain rfl : d = 17 := by omega
  obtain rfl : qinv = 4 := by omega
  rw [exec_keyderive hv, hp, hq]
  exact h

/-- R222's counterexample: the powers are 3^1 mod 9 = 3 and 3^5 mod 7 = 5, where 3^17 mod 9 is 0. -/
theorem crtDecrypt_nine_seven : crtDecrypt ⟨9, 7, 63, 48, 65537, 17, 1, 5, 4⟩ 3 = 12 := by decide

end

/-- Settles O38: the model's recombination is the integer one, and CRT_RECOMBINE checks q, then the width. -/
theorem crtRecombineGivesTheGarnerValue : Obligations.CrtRecombineGivesTheGarnerValue := by
  refine ⟨encodedAs_crtRecombine, fun s rd mp mq p q qi =>
    ⟨exec_crtRecombine_bad_modulus rd mp mq p qi, fun hq h => ?_, fun hq h => ?_⟩⟩
  · rw [← crtCombine_eq_garner _ _ _ _ (Nat.zero_lt_of_lt hq), Nat.cast_le] at h
    exact exec_crtRecombine_overflow rd hq h
  · have heq := crtCombine_eq_garner (s.reg mp) (s.reg mq) (s.reg p) (s.reg qi) (Nat.zero_lt_of_lt hq)
    rw [← heq, Nat.cast_lt] at h
    exact ⟨_, heq, exec_crtRecombine_fits rd hq h⟩

/-- Settles O39: the recombination has both residues, and by the Chinese remainder theorem they pin a value below
p * q. -/
theorem crtRecombineFindsTheUniqueResidue : Obligations.CrtRecombineFindsTheUniqueResidue := by
  intro s rd mp mq p q qi hq hmp hmq hinv hwidth
  have hlt := crtCombine_lt (s.reg mq) (s.reg qi) (Nat.zero_lt_of_lt hq) hmp
  have hmodp := crtCombine_mod_p (s.reg mq) (s.reg q) (s.reg qi) hmp
  have hmodq := crtCombine_mod_q (mp := s.reg mp) hmq hinv
  have hcop : Nat.Coprime (s.reg p) (s.reg q) :=
    Nat.coprime_of_mul_modEq_one (s.reg qi) (hinv.trans (Nat.mod_eq_of_lt hq).symm)
  refine ⟨_, exec_crtRecombine_fits rd hq (hlt.trans_le hwidth), hlt, hmodp, hmodq, fun u hu hup huq => ?_⟩
  have hmod := (Nat.modEq_and_modEq_iff_modEq_mul hcop).1 ⟨hup.trans hmodp.symm, huq.trans hmodq.symm⟩
  exact hmod.eq_of_lt_of_lt hu hlt

/-- Settles O49: with a valid key both powers are those of R221, and their recombination is below n. -/
theorem decBlockRecombinesThePrivatePowers : Obligations.DecBlockRecombinesThePrivatePowers := by
  refine ⟨encodedAs_decBlock, fun s rd c hs =>
    ⟨fun h => exec_decBlock_noKey h rd c, exec_decBlock_tooLarge rd, fun hv h => ?_⟩⟩
  have hk := hs.key_valid hv
  refine ⟨_, ?_, crtDecrypt_lt hk (s.reg c), exec_decBlock_admitted rd hv h⟩
  rw [crtDecrypt_eq_crtCombine_pow hk]
  exact crtCombine_eq_garner _ _ _ _ (Nat.zero_lt_of_lt hk.one_lt_q)

/-- Settles O50: Fermat for each prime factor and the Chinese remainder theorem give the private power; with the
key of 9 and 7 both DEC_BLOCK of 3 and the power are evaluated. -/
theorem crtDecryptionEqualsThePrivatePower : Obligations.CrtDecryptionEqualsThePrivatePower := by
  refine ⟨fun s rd c hs hv hp hq _ h => ?_, fun s rd c p q hc hv hp hq h3 => ?_⟩
  · rw [exec_decBlock_admitted rd hv h, crtDecrypt_eq_pow (hs.key_valid hv) hp hq]
  · have hn : s.reg c < 63 := h3.trans_lt (by decide)
    refine ⟨_, exec_keyderive_nine_seven hc hv hp hq, rfl, ?_, by decide⟩
    rw [← crtDecrypt_nine_seven, ← h3]
    exact exec_decBlock_admitted rd rfl hn

end Sys2Proof.Machine

/-! ## Errors and the idle core (60_exceptions.md): what an error leaves alone, and that an idle core waits -/

namespace Sys2Proof.Machine

/-! ### An idle core (R255) -/

theorem engineTurn_of_idle {s : State} (hb : s.busy = false) : engineTurn s = .next s := by
  simp only [engineTurn, hb]

/-! ### The error of a completed word (R240, R247) -/

/-- Only an error sets ERR: the other endings leave it as they find it. -/
theorem Ending.eq_error_of_err {z : Ending} {pos : Nat} {s : State} (hs : s.err = false)
    (hz : (z.state pos s).err = true) : ∃ c, z = .error c := by
  cases z with
  | error c => exact ⟨c, rfl⟩
  | nothing => exact absurd (hs.symm.trans hz) nofun
  | write rd v => exact absurd (hs.symm.trans hz) nofun
  | install k => exact absurd (hs.symm.trans hz) nofun

/-- A word that completes with an error, from ERR = 0, does nothing but report it, with the words it took taken. -/
theorem completeWord_error {w : Word} {s t : State} (hs : s.err = false) (ht : completeWord w s = .next t)
    (herr : t.err = true) : ∃ c pos, t = raiseError c (tookWords pos s) := by
  cases hd : decode w with
  | error r =>
    rw [completeWord_of_error hd] at ht
    cases ht
    exact ⟨.badCmd, s.rngPos, rfl⟩
  | ok i =>
    obtain ⟨z, pos, -, e⟩ := exec_ending i s
    rw [completeWord_of_ok hd, e] at ht
    cases ht
    obtain ⟨c, rfl⟩ := Ending.eq_error_of_err hs herr
    exact ⟨c, pos, rfl⟩

/-- Settles O17: the error is raised from the accepted state, which differs from the state before it in CTRL, PENDING
and the status alone; the completion empties PENDING and clears BUSY again. -/
theorem errorsArePrecise : Obligations.ErrorsArePrecise := by
  intro s t w hb hp ht herr
  obtain ⟨c, pos, rfl⟩ := completeWord_error (s := Claims.accepted w s) rfl ht herr
  refine ⟨?_, code_ne_zero c⟩
  have hidle : s = { s with busy := false, pending := none } := by rw [← hb, ← hp]
  rw [hidle]
  rfl

/-- Settles O15: on either turn the engine of an idle core does nothing. -/
theorem idleCoreDoesNothing : Obligations.IdleCoreDoesNothing := fun _ hc hb =>
  ⟨fun he => (step_idle hc he).trans (engineTurn_of_idle hb),
    fun _ he => (step_complete hc he).trans (engineTurn_of_idle hb)⟩

end Sys2Proof.Machine

/-! ## Reset and hazards (70_reset_and_hazards.md): an accepted command is completed or abandoned in time -/

namespace Sys2Proof.Machine

/-! ### The completion clears BUSY (R122, R126) -/

theorem exec_clears_busy {i : Instr} {s t : State} (h : exec i s = .next t) : t.busy = false := by
  obtain ⟨z, pos, -, e⟩ := exec_ending i s
  rw [e] at h
  cases h
  cases z <;> rfl

/-- The engine's turn leaves BUSY = 1 only in the unreachable state with nothing accepted (log entry 10). -/
theorem engineTurn_clears_busy {s t : State} (hp : s.pending.isSome = true) (h : engineTurn s = .next t) :
    t.busy = false := by
  obtain ⟨hb | hnone, e⟩ | ⟨w, i, -, -, -, e⟩ | ⟨w, r, -, -, -, e⟩ := engineTurn_cases s
  · rw [e] at h
    cases h
    exact hb
  · rw [hnone] at hp
    cases hp
  · exact exec_clears_busy (e ▸ h)
  · rw [e] at h
    cases h
    rfl

/-! ### What an access leaves of an accepted command (R69) -/

/-- A busy core accepts nothing: no access moves BUSY or PENDING. -/
theorem busAccess_of_busy {a : Access} {s t : State} (hb : s.busy = true) (h : busAccess a s = .next t) :
    t.busy = true ∧ t.pending = s.pending := by
  obtain ⟨-, e⟩ | ⟨f, e⟩ | ⟨l, -, e⟩ | ⟨l, v, hl, e⟩ := busAccess_cases a s <;> rw [e] at h <;> cases h
  · exact ⟨hb, rfl⟩
  · rw [readLoc_frame]
    exact ⟨hb, rfl⟩
  · obtain hw | hw | ⟨hidle, -⟩ := writeLoc_cases v hl
    · rw [hw]
      exact ⟨hb, rfl⟩
    · rw [hw]
      exact ⟨hb, rfl⟩
    · simp [hb] at hidle

/-! ### The steps of an accepted command -/

/-- A step of an accepted command ends it (its completion or a reset), or serves one of the accesses on their
way and leaves it accepted. -/
theorem step_of_accepted {s : State} (hs : s.answerable = true) (hb : s.busy = true)
    (hp : s.pending.isSome = true) :
    ∃ t, step s = .next t ∧ (t.busy = false ∨
      (t.answerable = true ∧ t.busy = true ∧ t.pending.isSome = true ∧ ∃ e, s.events = e :: t.events)) := by
  obtain ⟨t, ht, hta⟩ := answerableCoreNeverStops s hs
  refine ⟨t, ht, ?_⟩
  obtain ⟨-, rest, ⟨-, rfl⟩ | ⟨a, he, ha⟩ | ⟨-, he⟩⟩ := step_cases ht
  · exact .inl (applyReset_busy _)
  · obtain ⟨htb, htp⟩ := busAccess_of_busy (s := { s with events := rest }) hb ha
    exact .inr ⟨hta, htb, by rw [htp]; exact hp, _, by rw [busAccess_events ha]; exact he⟩
  · exact .inl (engineTurn_clears_busy (s := { s with events := rest }) hp he)

theorem run_succ_of_step {s t : State} (h : step s = .next t) (k : Nat) :
    Host.Core.run Sys2Proof.core (k + 1) s = Host.Core.run Sys2Proof.core k t := by
  have hcore : Sys2Proof.core.step s = .next t := h
  simp only [Host.Core.run, hcore]

/-- Settles O19, by induction on the events on their way: a step ends the command or takes one of them. -/
theorem acceptedCommandCompletesInBoundedSteps : Obligations.AcceptedCommandCompletesInBoundedSteps := by
  intro s hs hb hp
  induction hes : s.events generalizing s with
  | nil =>
    obtain ⟨t, ht, hidle | ⟨-, -, -, e, he⟩⟩ := step_of_accepted hs hb hp
    · exact ⟨1, le_rfl, t, run_succ_of_step ht 0, hidle⟩
    · rw [hes] at he
      cases he
  | cons e rest ih =>
    obtain ⟨t, ht, hidle | ⟨hta, htb, htp, e', he⟩⟩ := step_of_accepted hs hb hp
    · exact ⟨1, by simp, t, run_succ_of_step ht 0, hidle⟩
    · rw [hes] at he
      obtain ⟨-, hrest⟩ := List.cons.inj he
      obtain ⟨k, hk, u, hu, hidle⟩ := ih t hta htb htp hrest.symm
      exact ⟨k + 1, Nat.succ_le_succ hk, u, (run_succ_of_step ht k).trans hu, hidle⟩

end Sys2Proof.Machine
